-- ==== Sys2Proof/Word.lean ====
section
/-! DEFINITION. The word types of the machine: bytes, words, the fields of an instruction word, and the three access
widths (00_scope.md section 5.1, rule R5; 20_memory.md rule R38). -/

namespace Sys2Proof

/-- The 8-bit byte, the addressable unit (R30). -/
abbrev Byte := BitVec 8

/-- The 32-bit word: a register, the pc, an address, an instruction word (R5). -/
abbrev Word := BitVec 32

/-- An x register specifier, the 5 bits an instruction names it by (R10). -/
abbrev RegSpec := BitVec 5

/-- A control/status register number, 12 bits, unsigned (R16, R72). -/
abbrev CsrNum := BitVec 12

/-- The widths a memory access can have: 1, 2 or 4 bytes (R38). -/
inductive Width where
  | byte
  | half
  | word
deriving DecidableEq, Repr

/-- The number of bytes of an access. -/
def Width.bytes : Width → Nat
  | .byte => 1
  | .half => 2
  | .word => 4

/-- The number of bits of the value an access carries. -/
@[reducible] def Width.bits : Width → Nat
  | .byte => 8
  | .half => 16
  | .word => 32

end Sys2Proof
end

