-- ==== Sys2Proof/Config.lean ====
section
/-! DEFINITION. What an implementation fixes and the spec leaves open: the open parameters of 92_eei_decisions.md that are
functions of a value. The parameters that are data (the initial registers, InitMem, MemValid) are arguments of
Sys2Proof.Machine.State.resetWith. -/

namespace Sys2Proof.Config

/-- `StatusPass`: which exit value written to `status` means that the run passes (R17, D9). OPEN: no body, so every
claim holds for every choice. Log entry 5. -/
opaque statusPass : Word → Bool

/-- `StatsEnabled`: which value written to `stats_en` switches statistics tracking on (R18, R104, D10). OPEN: no body;
no rule reads it. Log entry 6. -/
opaque statsEnabled : Word → Bool

/-- `DivZero` and `DivOverflow`: the results of the division corners, each a function of the dividend (R124, D11).
The values R124 gives are Sys2Proof.Machine.divCorners. Log entry 7. -/
structure DivCorners where
  /-- DIV by zero. -/
  divByZero : Word → Word
  /-- DIVU by zero. -/
  divuByZero : Word → Word
  /-- REM by zero. -/
  remByZero : Word → Word
  /-- REMU by zero. -/
  remuByZero : Word → Word
  /-- DIV of -2^31 by -1. -/
  divOverflow : Word → Word
  /-- REM of -2^31 by -1. -/
  remOverflow : Word → Word

/-- The address of the first instruction after reset (R24, R260). -/
def resetVector : Word := 0x00080000#32

end Sys2Proof.Config
end

