-- ==== Sys2Proof/Machine/State.lean ====
section
/-! DEFINITION. The state of the machine as plain data, the reasons a step can stop, and the state after reset
(10_state.md; 20_memory.md rules R30, R41, R47; 60_exceptions.md rule R221; 70_reset_and_hazards.md). -/

namespace Sys2Proof.Machine

/-- Memory: (address, byte) pairs. In its canonical form (Memory.wf) addresses rise strictly and no entry equals what an
unlisted address reads as. -/
abbrev Memory := List Host.Cell

/-- What an unlisted address reads as. DESIGN CHOICE, unsafe: the spec leaves InitMem open (R24, D13). Log entry 3. -/
def unlistedByte : Byte := 0x00#8

/-- A range of addresses that hold memory: `base` to `base + size - 1`. -/
structure Region where
  base : Nat
  size : Nat
deriving DecidableEq, Repr

/-- The privilege modes: M-mode is the only one (R228). -/
inductive Mode where
  | machine
deriving DecidableEq, Repr

/-- The outcome marker: the run goes on, or has ended with the exit value written to `status` (R103, R266). It is not
hardware state (head of 10_state.md). -/
inductive RunState where
  | running
  | ended (exitValue : Word)
deriving DecidableEq, Repr

/-- The complete architectural state (10_state.md). x0 has no storage (R11). -/
structure State where
  /-- x1 to x31: register xi stands at index i - 1 (R10). -/
  x : Vector Word 31
  /-- The program counter: the address of the instruction being executed (R13). -/
  pc : Word
  /-- CSR `status`, 0x015 (R17). -/
  status : Word
  /-- CSR `stats_en`, 0x00A (R18). -/
  statsEn : Word
  /-- The contents of memory (R21). -/
  mem : Memory
  /-- The byte addresses stored to since reset, rising strictly (R46, R47). -/
  stored : List Nat
  /-- `MemValid`: the ranges that hold memory (R30, R41). No step changes it. -/
  memMap : List Region
  /-- The privilege mode, always M; nothing reads or writes it (R24, R228). -/
  mode : Mode
  /-- Whether the run has ended (R266). -/
  run : RunState
deriving DecidableEq, Repr

/-- The faults of R221, the complete list of the spec but for UninitializedRead, which R25 lets a model leave out by
taking every register value (log entry 1). A fault writes no state (R6). Each is SAFE: it stops where the hardware's
behaviour is unknown. -/
inductive Fault where
  /-- Raised by step when the fetched word matches no row of the opcode table (R84). Safe. -/
  | illegalInstruction (pc word : Word)
  /-- Raised by JAL, JALR and a taken branch to a target that is no multiple of 4 (R180), and by a fetch at such a pc (R46). Safe. -/
  | misalignedFetch (target : Word)
  /-- Raised by a fetch outside MemValid (R37, R46). Safe. -/
  | fetchAccess (pc : Word)
  /-- Raised by a fetch of a byte stored to since reset (R47). Safe. -/
  | fetchAfterStore (pc : Word)
  /-- Raised by LW, LH, LHU at an address that is no multiple of the width (R36). Safe. -/
  | misalignedLoad (addr : Word) (width : Nat)
  /-- Raised by SW, SH at an address that is no multiple of the width (R36). Safe. -/
  | misalignedStore (addr : Word) (width : Nat)
  /-- Raised by a load outside MemValid (R37). Safe. -/
  | loadAccess (addr : Word) (width : Nat)
  /-- Raised by a store outside MemValid (R37). Safe. -/
  | storeAccess (addr : Word) (width : Nat)
  /-- Raised by CSRW to a number other than 0x015 and 0x00A (R102). Safe. -/
  | unsupportedCsr (csr : CsrNum)
  /-- Raised by CSRW whose field rd is not zero (R101). Safe. -/
  | unsupportedCsrForm (rd : RegSpec)
deriving DecidableEq, Repr

/-- Why a step has no meaning. -/
inductive Refusal where
  /-- Raised by exec for an instruction that has no meaning yet. Safe. No arm answers it. -/
  | notModelled (mnemonic : String)
  /-- Raised by step when the run has ended: there is no successor state (R266, U15). Not a fault: an ended run is final.
  Safe. -/
  | runEnded (exitValue : Word)
deriving DecidableEq, Repr

/-- The state right after reset, for any value of what the spec leaves open at reset: the 31 registers, the two CSRs,
`MemValid` and `InitMem` (R24, R25, R260 to R263). -/
def State.resetWith (x : Vector Word 31) (status statsEn : Word) (memMap : List Region) (initMem : Memory) : State where
  x := x
  pc := Config.resetVector
  status := status
  statsEn := statsEn
  mem := initMem
  stored := []
  memMap := memMap
  mode := .machine
  run := .running

/-- The whole 32-bit address space as one region: the map the model takes at reset. DESIGN CHOICE, unsafe (D3 leaves
MemValid open). Log entry 4. -/
def wholeSpace : List Region := [⟨0, 2 ^ 32⟩]

/-- The machine right after reset. The registers and the two CSRs are zero: DESIGN CHOICE, unsafe, log entries 1 and 2
(the spec gives none and lets no claim assume zero, R25); memory lists nothing, log entry 3. -/
def State.reset : State :=
  State.resetWith (Vector.replicate 31 0#32) 0#32 0#32 wholeSpace []

end Sys2Proof.Machine
end

