-- ==== Sys2Proof/Machine/Flags.lean ====
section
/-! DEFINITION. Comparisons. The machine has no flags and no condition codes (10_state.md rule R15): a comparison gives the
value 1 or 0 to a register (41_reg_reg_arith.md rule R116) or decides a branch (45_branches.md). -/

namespace Sys2Proof.Machine

/-- `a <s b` (00_scope.md section 5.2). -/
def ltSigned (a b : Word) : Bool := decide (a.toInt < b.toInt)

/-- `a <u b`. -/
def ltUnsigned (a b : Word) : Bool := decide (a.toNat < b.toNat)

/-- `a >=s b`. -/
def geSigned (a b : Word) : Bool := decide (a.toInt ≥ b.toInt)

/-- `a >=u b`. -/
def geUnsigned (a b : Word) : Bool := decide (a.toNat ≥ b.toNat)

/-- A comparison used as a value: 1 when it holds, 0 when it does not (R116). -/
def boolWord (c : Bool) : Word := if c then 1#32 else 0#32

end Sys2Proof.Machine
end

