-- ==== Sys2Proof/Machine/Ops.lean ====
section
/-! DEFINITION. The named operations over registers, memory, the set of stored bytes, the CSRs and the pc, and the one way
an instruction stops. The machine has no trap entry and no trap return (60_exceptions.md rules R220, R225, R226): `raise`
is all there is. -/

namespace Sys2Proof.Machine

/-! ### Ending a step -/

/-- `raise F(info)`: the run stops in the named fault, with no effect (R6). This stands where other machines take an
exception: there is nothing to save and nowhere to go (R225). -/
def raise (f : Fault) : Host.Outcome State Fault Refusal := .fault f

/-- `pc <- t`: the next instruction is fetched from `t` (R14). -/
def setPc (s : State) (t : Word) : State := { s with pc := t }

/-- The default end of an instruction: `pc <- pc + 4`, modulo 2^32 (R8, R14). -/
def advance (s : State) : Host.Outcome State Fault Refusal := .next (setPc s (s.pc + 4#32))

/-! ### The x registers (R10, R11) -/

/-- `x[r]`: zero for x0, else the register (R11). -/
def readReg (s : State) (r : RegSpec) : Word :=
  if r = 0#5 then 0#32 else s.x[r.toNat - 1]'(by have := r.isLt; omega)

/-- `x[r] <- v`: discarded for x0 (R11). -/
def writeReg (s : State) (r : RegSpec) (v : Word) : State :=
  if r = 0#5 then s else { s with x := s.x.set (r.toNat - 1) v (by have := r.isLt; omega) }

/-! ### Bytes of memory -/

/-- The byte listed at an address, or what an unlisted address reads as. -/
def lookupCell : Memory → Nat → Byte
  | [], _ => unlistedByte
  | (k, b) :: m, a => if k = a then b else lookupCell m a

/-- A cell put in its place in the order of addresses. -/
def insertCell : Memory → Nat → Byte → Memory
  | [], a, b => [(a, b)]
  | (k, c) :: m, a, b => if a < k then (a, b) :: (k, c) :: m else (k, c) :: insertCell m a b

/-- The memory without any cell at an address. -/
def eraseCell : Memory → Nat → Memory
  | [], _ => []
  | (k, c) :: m, a => if k = a then eraseCell m a else (k, c) :: eraseCell m a

/-- `mem[a]` (R21, R30). -/
def Memory.read (m : Memory) (a : Word) : Byte := lookupCell m a.toNat

/-- `mem[a] <- b`, keeping the canonical form: writing what an unlisted address reads as removes the cell. -/
def Memory.write (m : Memory) (a : Word) (b : Byte) : Memory :=
  if b = unlistedByte then eraseCell m a.toNat else insertCell (eraseCell m a.toNat) a.toNat b

/-- Every cell lies at or above a bound, inside the address space, and addresses rise strictly; no cell holds what an
unlisted address reads as. -/
def cellsFrom : Nat → Memory → Bool
  | _, [] => true
  | lo, (k, b) :: m => decide (lo ≤ k) && decide (k < 2 ^ 32) && decide (b ≠ unlistedByte) && cellsFrom (k + 1) m

/-- The canonical form of memory. -/
def Memory.wf (m : Memory) : Bool := cellsFrom 0 m

/-- The little-endian value of an access's bytes: the byte at the lowest address is the least significant (R31, R34). -/
def readLE (m : Memory) (a : Word) : (w : Width) → BitVec w.bits
  | .byte => m.read a
  | .half => m.read (a + 1#32) ++ m.read a
  | .word => m.read (a + 3#32) ++ m.read (a + 2#32) ++ m.read (a + 1#32) ++ m.read a

/-- The bytes of a value written little-endian from an address (R31, R35). -/
def writeLE (m : Memory) (a : Word) : (w : Width) → BitVec w.bits → Memory
  | .byte, v => m.write a v
  | .half, v => (m.write a (v.extractLsb' 0 8)).write (a + 1#32) (v.extractLsb' 8 8)
  | .word, v =>
    (((m.write a (v.extractLsb' 0 8)).write (a + 1#32) (v.extractLsb' 8 8)).write
      (a + 2#32) (v.extractLsb' 16 8)).write (a + 3#32) (v.extractLsb' 24 8)

/-- The addresses of the bytes of an access, lowest first (R34, R35). -/
def accessBytes (a : Word) : Width → List Word
  | .byte => [a]
  | .half => [a, a + 1#32]
  | .word => [a, a + 1#32, a + 2#32, a + 3#32]

/-! ### The bytes stored to since reset (R46, R47) -/

/-- An address put into a rising list of addresses, once. -/
def insertAddr : List Nat → Nat → List Nat
  | [], a => [a]
  | k :: l, a => if a < k then a :: k :: l else if a = k then k :: l else k :: insertAddr l a

/-- The addresses of an access added to the stored ones. -/
def markStored (l : List Nat) : List Word → List Nat
  | [] => l
  | a :: as => markStored (insertAddr l a.toNat) as

/-- The addresses rise strictly from a bound and lie inside the address space. -/
def addrsFrom : Nat → List Nat → Bool
  | _, [] => true
  | lo, k :: l => decide (lo ≤ k) && decide (k < 2 ^ 32) && addrsFrom (k + 1) l

/-- The canonical form of the stored addresses. -/
def storedWf (l : List Nat) : Bool := addrsFrom 0 l

/-- Some byte of the access has been stored to since reset (R46). -/
def anyStored (s : State) (a : Word) (w : Width) : Bool :=
  (accessBytes a w).any fun b => s.stored.contains b.toNat

/-! ### Valid memory and the access primitives (R33 to R37) -/

/-- The address lies in the region. -/
def Region.covers (r : Region) (a : Word) : Bool := decide (r.base ≤ a.toNat) && decide (a.toNat < r.base + r.size)

/-- `MemValid(a)` (R30, R41). -/
def memValid (s : State) (a : Word) : Bool := s.memMap.any fun r => r.covers a

/-- `MemValid` holds at every byte of the access (R34, R35, R46). -/
def accessValid (s : State) (a : Word) (w : Width) : Bool := (accessBytes a w).all (memValid s)

/-- The address is a multiple of the width (R33, R34). -/
def aligned (a : Word) (w : Width) : Bool := a.toNat % w.bytes == 0

/-- `MemRead(addr, n)`: alignment, then validity, then the little-endian value; nothing changes (R34). -/
def memRead (s : State) (a : Word) (w : Width) : Except Fault (BitVec w.bits) :=
  if !aligned a w then .error (.misalignedLoad a w.bytes)
  else if !accessValid s a w then .error (.loadAccess a w.bytes)
  else .ok (readLE s.mem a w)

/-- The state after the bytes of a store are written and remembered as stored (R35, R47). -/
def storeBytes (s : State) (a : Word) (w : Width) (v : BitVec w.bits) : State :=
  { s with mem := writeLE s.mem a w v, stored := markStored s.stored (accessBytes a w) }

/-- `MemWrite(addr, n, v)`: alignment, then validity, then all the bytes (R35). -/
def memWrite (s : State) (a : Word) (w : Width) (v : BitVec w.bits) : Except Fault State :=
  if !aligned a w then .error (.misalignedStore a w.bytes)
  else if !accessValid s a w then .error (.storeAccess a w.bytes)
  else .ok (storeBytes s a w v)

/-! ### The control and status registers (R16 to R19) -/

/-- The number of `status` (R16). -/
def csrStatus : CsrNum := 0x015#12

/-- The number of `stats_en` (R16). -/
def csrStatsEn : CsrNum := 0x00A#12

/-- A write to `status`: the register takes the value and the run ends with it (R17, R103, R266). -/
def writeStatus (s : State) (v : Word) : State := { s with status := v, run := .ended v }

/-- A write to `stats_en`: the register takes the value, and nothing else changes (R18, R104). -/
def writeStatsEn (s : State) (v : Word) : State := { s with statsEn := v }

/-! ### Control transfer (R180) -/

/-- The target is a multiple of 4: bits 1:0 are 00 (R180). -/
def targetAligned (t : Word) : Bool := t.extractLsb' 0 2 == 0#2

/-- Go to a target, having written the return address to `rd`; a target that is no multiple of 4 raises and writes
nothing (R180, R181, R182). -/
def jumpAndLink (s : State) (rd : RegSpec) (target : Word) : Host.Outcome State Fault Refusal :=
  if targetAligned target then .next (setPc (writeReg s rd (s.pc + 4#32)) target) else raise (.misalignedFetch target)

/-- The common behaviour of the six branches (R190). -/
def branch (s : State) (taken : Bool) (target : Word) : Host.Outcome State Fault Refusal :=
  if taken then
    if targetAligned target then .next (setPc s target) else raise (.misalignedFetch target)
  else advance s

/-! ### The shapes shared by the families -/

/-- `x[rd] <- v; pc <- pc + 4`. -/
def writeResult (s : State) (rd : RegSpec) (v : Word) : Host.Outcome State Fault Refusal := advance (writeReg s rd v)

/-- A load: read, extend, write `rd`; on a fault nothing is written (R160 to R166). -/
def loadInto (s : State) (rd : RegSpec) (a : Word) (w : Width) (extend : BitVec w.bits → Word) :
    Host.Outcome State Fault Refusal :=
  match memRead s a w with
  | .error f => raise f
  | .ok v => writeResult s rd (extend v)

/-- A store: write the bytes; on a fault nothing is written (R160, R162, R167, R168). -/
def storeFrom (s : State) (a : Word) (w : Width) (v : BitVec w.bits) : Host.Outcome State Fault Refusal :=
  match memWrite s a w v with
  | .error f => raise f
  | .ok t => advance t

end Sys2Proof.Machine
end

