-- ==== Sys2Proof/Machine/Operands.lean ====
section
/-! DEFINITION. The operand forms: the 32-bit immediates, shift amounts, the effective address of a load or store, and the
targets of jumps and branches (30_encoding.md rules R66 to R71; 43_memory_instrs.md rule R160; 44_jumps.md; 45_branches.md). -/

namespace Sys2Proof.Machine

/-- `imm_I`: the 12-bit field sign-extended to 32 bits (R66). -/
def immI (imm : BitVec 12) : Word := imm.signExtend 32

/-- `imm_S`: the 12-bit field sign-extended to 32 bits (R67). -/
def immS (imm : BitVec 12) : Word := imm.signExtend 32

/-- `imm_B`: the 13-bit offset sign-extended to 32 bits (R68). -/
def immB (imm : BitVec 13) : Word := imm.signExtend 32

/-- `imm_U`: the 20-bit field above twelve zeros; the one shift there is (R69, C2). -/
def immU (imm : BitVec 20) : Word := imm ++ 0#12

/-- `imm_J`: the 21-bit offset sign-extended to 32 bits (R70). -/
def immJ (imm : BitVec 21) : Word := imm.signExtend 32

/-- The amount a constant shifts by: the 5-bit field, unsigned (R71). -/
def shamtAmount (shamt : BitVec 5) : Nat := shamt.toNat

/-- The amount a register value shifts by: its low five bits (R119). -/
def regAmount (v : Word) : Nat := (v.extractLsb' 0 5).toNat

/-- The effective address of a load: `x[rs1] + imm_I`, modulo 2^32 (R160). -/
def loadAddress (s : State) (rs1 : RegSpec) (imm : BitVec 12) : Word := readReg s rs1 + immI imm

/-- The effective address of a store: `x[rs1] + imm_S`, modulo 2^32 (R160). -/
def storeAddress (s : State) (rs1 : RegSpec) (imm : BitVec 12) : Word := readReg s rs1 + immS imm

/-- The target of JAL: `pc + imm_J` (R181). -/
def jalTarget (s : State) (imm : BitVec 21) : Word := s.pc + immJ imm

/-- The target of JALR: `x[rs1] + imm_I` with bit 0 cleared (R182). -/
def jalrTarget (s : State) (rs1 : RegSpec) (imm : BitVec 12) : Word := (readReg s rs1 + immI imm) &&& 0xFFFFFFFE#32

/-- The target of a taken branch: `pc + imm_B` (R190). -/
def branchTarget (s : State) (imm : BitVec 13) : Word := s.pc + immB imm

end Sys2Proof.Machine
end

