-- ==== Sys2Proof/Syntax.lean ====
section
/-! DEFINITION. The instructions: one constructor per row of spec/opcode_table.json, 43 in all (00_scope.md rule R2), in
the table's order. Operands stand in the order of the assembler's syntax (30_encoding.md rule R88).

An immediate is held as the bits the encoding can carry: 12 bits for the I- and S-immediates (R66, R67), 13 bits with bit 0
zero for the B-immediate (R68), the 20-bit field of the U-immediate (R69), 21 bits with bit 0 zero for the J-immediate
(R70), 5 bits for a shift amount (R71), 12 bits for a CSR number (R72). -/

namespace Sys2Proof

/-- One instruction. -/
inductive Instr where
  /-- CSRW: R100. Move value in GPR to control/status register; `rd` is the free field of the encoding (R100, R101). -/
  | csrw (csr : CsrNum) (rs1 rd : RegSpec)
  /-- ADD: R111. -/
  | add (rd rs1 rs2 : RegSpec)
  /-- SUB: R112. -/
  | sub (rd rs1 rs2 : RegSpec)
  /-- AND: R113. -/
  | and (rd rs1 rs2 : RegSpec)
  /-- OR: R114. -/
  | or (rd rs1 rs2 : RegSpec)
  /-- XOR: R115. -/
  | xor (rd rs1 rs2 : RegSpec)
  /-- SLT: R117. -/
  | slt (rd rs1 rs2 : RegSpec)
  /-- SLTU: R118. -/
  | sltu (rd rs1 rs2 : RegSpec)
  /-- SRA: R120. -/
  | sra (rd rs1 rs2 : RegSpec)
  /-- SRL: R121. -/
  | srl (rd rs1 rs2 : RegSpec)
  /-- SLL: R122. -/
  | sll (rd rs1 rs2 : RegSpec)
  /-- MUL: R123. -/
  | mul (rd rs1 rs2 : RegSpec)
  /-- DIV: R125. -/
  | div (rd rs1 rs2 : RegSpec)
  /-- DIVU: R126. -/
  | divu (rd rs1 rs2 : RegSpec)
  /-- REM: R127. -/
  | rem (rd rs1 rs2 : RegSpec)
  /-- REMU: R128. -/
  | remu (rd rs1 rs2 : RegSpec)
  /-- ADDI: R140. -/
  | addi (rd rs1 : RegSpec) (imm : BitVec 12)
  /-- ANDI: R141. -/
  | andi (rd rs1 : RegSpec) (imm : BitVec 12)
  /-- ORI: R142. -/
  | ori (rd rs1 : RegSpec) (imm : BitVec 12)
  /-- XORI: R143. -/
  | xori (rd rs1 : RegSpec) (imm : BitVec 12)
  /-- SLTI: R144. -/
  | slti (rd rs1 : RegSpec) (imm : BitVec 12)
  /-- SLTIU: R145. -/
  | sltiu (rd rs1 : RegSpec) (imm : BitVec 12)
  /-- SRAI: R146. -/
  | srai (rd rs1 : RegSpec) (shamt : BitVec 5)
  /-- SRLI: R147. -/
  | srli (rd rs1 : RegSpec) (shamt : BitVec 5)
  /-- SLLI: R148. -/
  | slli (rd rs1 : RegSpec) (shamt : BitVec 5)
  /-- LUI: R149. -/
  | lui (rd : RegSpec) (imm : BitVec 20)
  /-- AUIPC: R150. -/
  | auipc (rd : RegSpec) (imm : BitVec 20)
  /-- LW: R161. -/
  | lw (rd rs1 : RegSpec) (imm : BitVec 12)
  /-- SW: R162. -/
  | sw (rs2 rs1 : RegSpec) (imm : BitVec 12)
  /-- LH: R163. -/
  | lh (rd rs1 : RegSpec) (imm : BitVec 12)
  /-- LHU: R164. -/
  | lhu (rd rs1 : RegSpec) (imm : BitVec 12)
  /-- LB: R165. -/
  | lb (rd rs1 : RegSpec) (imm : BitVec 12)
  /-- LBU: R166. -/
  | lbu (rd rs1 : RegSpec) (imm : BitVec 12)
  /-- SH: R167. -/
  | sh (rs2 rs1 : RegSpec) (imm : BitVec 12)
  /-- SB: R168. -/
  | sb (rs2 rs1 : RegSpec) (imm : BitVec 12)
  /-- JAL: R181. -/
  | jal (rd : RegSpec) (imm : BitVec 21)
  /-- JALR: R182. -/
  | jalr (rd rs1 : RegSpec) (imm : BitVec 12)
  /-- BEQ: R191. -/
  | beq (rs1 rs2 : RegSpec) (imm : BitVec 13)
  /-- BNE: R192. -/
  | bne (rs1 rs2 : RegSpec) (imm : BitVec 13)
  /-- BLT: R193. -/
  | blt (rs1 rs2 : RegSpec) (imm : BitVec 13)
  /-- BGE: R194. -/
  | bge (rs1 rs2 : RegSpec) (imm : BitVec 13)
  /-- BLTU: R195. -/
  | bltu (rs1 rs2 : RegSpec) (imm : BitVec 13)
  /-- BGEU: R196. -/
  | bgeu (rs1 rs2 : RegSpec) (imm : BitVec 13)
deriving DecidableEq, Repr

end Sys2Proof
end

