-- ==== Sys2Proof/Machine/Branch.lean ====
section
/-! DEFINITION. The conditional branches (45_branches.md): no register is written, only the pc. -/

namespace Sys2Proof.Machine

/-- BEQ (R191). -/
def execBeq (rs1 rs2 : RegSpec) (imm : BitVec 13) (s : State) : Host.Outcome State Fault Refusal :=
  branch s (readReg s rs1 == readReg s rs2) (branchTarget s imm)

/-- BNE (R192). -/
def execBne (rs1 rs2 : RegSpec) (imm : BitVec 13) (s : State) : Host.Outcome State Fault Refusal :=
  branch s (readReg s rs1 != readReg s rs2) (branchTarget s imm)

/-- BLT (R193). -/
def execBlt (rs1 rs2 : RegSpec) (imm : BitVec 13) (s : State) : Host.Outcome State Fault Refusal :=
  branch s (ltSigned (readReg s rs1) (readReg s rs2)) (branchTarget s imm)

/-- BGE (R194). -/
def execBge (rs1 rs2 : RegSpec) (imm : BitVec 13) (s : State) : Host.Outcome State Fault Refusal :=
  branch s (geSigned (readReg s rs1) (readReg s rs2)) (branchTarget s imm)

/-- BLTU (R195). -/
def execBltu (rs1 rs2 : RegSpec) (imm : BitVec 13) (s : State) : Host.Outcome State Fault Refusal :=
  branch s (ltUnsigned (readReg s rs1) (readReg s rs2)) (branchTarget s imm)

/-- BGEU (R196). -/
def execBgeu (rs1 rs2 : RegSpec) (imm : BitVec 13) (s : State) : Host.Outcome State Fault Refusal :=
  branch s (geUnsigned (readReg s rs1) (readReg s rs2)) (branchTarget s imm)

end Sys2Proof.Machine
end

