-- ==== Sys2Proof/Machine/Csr.lean ====
section
/-! DEFINITION. The control/status register write (40_csr.md): the checks in the order of R224, then the write; a write to `status`
ends the run (R103). -/

namespace Sys2Proof.Machine

/-- CSRW (R100 to R104). -/
def execCsrw (csr : CsrNum) (rs1 rd : RegSpec) (s : State) : Host.Outcome State Fault Refusal :=
  if rd ≠ 0#5 then raise (.unsupportedCsrForm rd)
  else if csr = csrStatus then advance (writeStatus s (readReg s rs1))
  else if csr = csrStatsEn then advance (writeStatsEn s (readReg s rs1))
  else raise (.unsupportedCsr csr)

end Sys2Proof.Machine
end

