-- ==== Sys2Proof/Machine/Jump.lean ====
section
/-! DEFINITION. The unconditional jumps (44_jumps.md). The target is computed from the state before `rd` is written
(00_scope.md rule R7, 90_conflicts.md C17). -/

namespace Sys2Proof.Machine

/-- JAL (R181). -/
def execJal (rd : RegSpec) (imm : BitVec 21) (s : State) : Host.Outcome State Fault Refusal :=
  jumpAndLink s rd (jalTarget s imm)

/-- JALR (R182). -/
def execJalr (rd rs1 : RegSpec) (imm : BitVec 12) (s : State) : Host.Outcome State Fault Refusal :=
  jumpAndLink s rd (jalrTarget s rs1 imm)

end Sys2Proof.Machine
end

