-- ==== Sys2Proof/Machine/LoadStore.lean ====
section
/-! DEFINITION. The loads and stores (43_memory_instrs.md). One addressing mode; a fault writes nothing (00_scope.md rule R6).
SH stores the low half-word and SB the low byte (90_conflicts.md C4). -/

namespace Sys2Proof.Machine

/-- LW (R161). -/
def execLw (rd rs1 : RegSpec) (imm : BitVec 12) (s : State) : Host.Outcome State Fault Refusal :=
  loadInto s rd (loadAddress s rs1 imm) .word id

/-- SW (R162). -/
def execSw (rs2 rs1 : RegSpec) (imm : BitVec 12) (s : State) : Host.Outcome State Fault Refusal :=
  storeFrom s (storeAddress s rs1 imm) .word (readReg s rs2)

/-- LH (R163). -/
def execLh (rd rs1 : RegSpec) (imm : BitVec 12) (s : State) : Host.Outcome State Fault Refusal :=
  loadInto s rd (loadAddress s rs1 imm) .half (BitVec.signExtend 32)

/-- LHU (R164). -/
def execLhu (rd rs1 : RegSpec) (imm : BitVec 12) (s : State) : Host.Outcome State Fault Refusal :=
  loadInto s rd (loadAddress s rs1 imm) .half (BitVec.setWidth 32)

/-- LB (R165). -/
def execLb (rd rs1 : RegSpec) (imm : BitVec 12) (s : State) : Host.Outcome State Fault Refusal :=
  loadInto s rd (loadAddress s rs1 imm) .byte (BitVec.signExtend 32)

/-- LBU (R166). -/
def execLbu (rd rs1 : RegSpec) (imm : BitVec 12) (s : State) : Host.Outcome State Fault Refusal :=
  loadInto s rd (loadAddress s rs1 imm) .byte (BitVec.setWidth 32)

/-- SH (R167). -/
def execSh (rs2 rs1 : RegSpec) (imm : BitVec 12) (s : State) : Host.Outcome State Fault Refusal :=
  storeFrom s (storeAddress s rs1 imm) .half ((readReg s rs2).extractLsb' 0 16)

/-- SB (R168). -/
def execSb (rs2 rs1 : RegSpec) (imm : BitVec 12) (s : State) : Host.Outcome State Fault Refusal :=
  storeFrom s (storeAddress s rs1 imm) .byte ((readReg s rs2).extractLsb' 0 8)

end Sys2Proof.Machine
end

