-- ==== Sys2Proof/Machine/Arith.lean ====
section
/-! DEFINITION. Shifts, multiplication and division (41_reg_reg_arith.md rules R110, R119, R123 to R128). -/

namespace Sys2Proof.Machine

/-- `a << n`: zeros come in at the right (R122, R148). -/
def shiftLeft (a : Word) (n : Nat) : Word := a <<< n

/-- `a >> n`: zeros come in at the left (R121, R147). -/
def shiftRightLogical (a : Word) (n : Nat) : Word := a >>> n

/-- `a >>> n`: copies of bit 31 come in at the left (R120, R146). -/
def shiftRightArith (a : Word) (n : Nat) : Word := a.sshiftRight n

/-- MUL: the low 32 bits of the exact product (R110, R123). -/
def mulLow (a b : Word) : Word := BitVec.ofInt 32 (a.toInt * b.toInt)

/-- The corner results R124 gives, which the spec takes from RV32M (D11). Log entry 7. -/
def divCorners : Config.DivCorners where
  divByZero := fun _ => 0xFFFFFFFF#32
  divuByZero := fun _ => 0xFFFFFFFF#32
  remByZero := fun a => a
  remuByZero := fun a => a
  divOverflow := fun a => a
  remOverflow := fun _ => 0#32

/-- The one overflow of signed division: -2^31 by -1 (R124 item 4). -/
def divOverflows (a b : Word) : Bool := a == 0x80000000#32 && b == 0xFFFFFFFF#32

/-- DIV: the exact quotient rounded toward zero (R124 items 1, 3, 4; R125). -/
def divSigned (c : Config.DivCorners) (a b : Word) : Word :=
  if b = 0#32 then c.divByZero a
  else if divOverflows a b then c.divOverflow a
  else BitVec.ofInt 32 (a.toInt.tdiv b.toInt)

/-- DIVU: the exact quotient rounded down (R124 item 3; R126). -/
def divUnsigned (c : Config.DivCorners) (a b : Word) : Word :=
  if b = 0#32 then c.divuByZero a else BitVec.ofNat 32 (a.toNat / b.toNat)

/-- REM: the dividend less the divisor times the quotient (R124 items 2, 3, 4; R127). -/
def remSigned (c : Config.DivCorners) (a b : Word) : Word :=
  if b = 0#32 then c.remByZero a
  else if divOverflows a b then c.remOverflow a
  else BitVec.ofInt 32 (a.toInt - b.toInt * a.toInt.tdiv b.toInt)

/-- REMU: the remainder of the unsigned values (R124 item 3; R128). -/
def remUnsigned (c : Config.DivCorners) (a b : Word) : Word :=
  if b = 0#32 then c.remuByZero a else BitVec.ofNat 32 (a.toNat % b.toNat)

end Sys2Proof.Machine
end

