-- ==== Sys2Proof/Machine/RegImm.lean ====
section
/-! DEFINITION. The register-immediate arithmetic instructions (42_reg_imm_arith.md). Each raises nothing and ends at pc + 4. -/

namespace Sys2Proof.Machine

/-- ADDI (R140). -/
def execAddi (rd rs1 : RegSpec) (imm : BitVec 12) (s : State) : Host.Outcome State Fault Refusal :=
  writeResult s rd (readReg s rs1 + immI imm)

/-- ANDI (R141). -/
def execAndi (rd rs1 : RegSpec) (imm : BitVec 12) (s : State) : Host.Outcome State Fault Refusal :=
  writeResult s rd (readReg s rs1 &&& immI imm)

/-- ORI (R142). -/
def execOri (rd rs1 : RegSpec) (imm : BitVec 12) (s : State) : Host.Outcome State Fault Refusal :=
  writeResult s rd (readReg s rs1 ||| immI imm)

/-- XORI (R143). -/
def execXori (rd rs1 : RegSpec) (imm : BitVec 12) (s : State) : Host.Outcome State Fault Refusal :=
  writeResult s rd (readReg s rs1 ^^^ immI imm)

/-- SLTI (R144). -/
def execSlti (rd rs1 : RegSpec) (imm : BitVec 12) (s : State) : Host.Outcome State Fault Refusal :=
  writeResult s rd (boolWord (ltSigned (readReg s rs1) (immI imm)))

/-- SLTIU (R145). -/
def execSltiu (rd rs1 : RegSpec) (imm : BitVec 12) (s : State) : Host.Outcome State Fault Refusal :=
  writeResult s rd (boolWord (ltUnsigned (readReg s rs1) (immI imm)))

/-- SRAI (R146). -/
def execSrai (rd rs1 : RegSpec) (shamt : BitVec 5) (s : State) : Host.Outcome State Fault Refusal :=
  writeResult s rd (shiftRightArith (readReg s rs1) (shamtAmount shamt))

/-- SRLI (R147). -/
def execSrli (rd rs1 : RegSpec) (shamt : BitVec 5) (s : State) : Host.Outcome State Fault Refusal :=
  writeResult s rd (shiftRightLogical (readReg s rs1) (shamtAmount shamt))

/-- SLLI (R148). -/
def execSlli (rd rs1 : RegSpec) (shamt : BitVec 5) (s : State) : Host.Outcome State Fault Refusal :=
  writeResult s rd (shiftLeft (readReg s rs1) (shamtAmount shamt))

/-- LUI (R149). -/
def execLui (rd : RegSpec) (imm : BitVec 20) (s : State) : Host.Outcome State Fault Refusal :=
  writeResult s rd (immU imm)

/-- AUIPC (R150). -/
def execAuipc (rd : RegSpec) (imm : BitVec 20) (s : State) : Host.Outcome State Fault Refusal :=
  writeResult s rd (s.pc + immU imm)

end Sys2Proof.Machine
end

