-- ==== Sys2Proof/Machine/RegReg.lean ====
section
/-! DEFINITION. The register-register arithmetic instructions (41_reg_reg_arith.md). Each reads both sources before it writes
`rd` (00_scope.md rule R7), raises nothing and ends at pc + 4. -/

namespace Sys2Proof.Machine

/-- ADD (R111). -/
def execAdd (rd rs1 rs2 : RegSpec) (s : State) : Host.Outcome State Fault Refusal :=
  writeResult s rd (readReg s rs1 + readReg s rs2)

/-- SUB (R112). -/
def execSub (rd rs1 rs2 : RegSpec) (s : State) : Host.Outcome State Fault Refusal :=
  writeResult s rd (readReg s rs1 - readReg s rs2)

/-- AND (R113). -/
def execAnd (rd rs1 rs2 : RegSpec) (s : State) : Host.Outcome State Fault Refusal :=
  writeResult s rd (readReg s rs1 &&& readReg s rs2)

/-- OR (R114). -/
def execOr (rd rs1 rs2 : RegSpec) (s : State) : Host.Outcome State Fault Refusal :=
  writeResult s rd (readReg s rs1 ||| readReg s rs2)

/-- XOR (R115). -/
def execXor (rd rs1 rs2 : RegSpec) (s : State) : Host.Outcome State Fault Refusal :=
  writeResult s rd (readReg s rs1 ^^^ readReg s rs2)

/-- SLT (R117). -/
def execSlt (rd rs1 rs2 : RegSpec) (s : State) : Host.Outcome State Fault Refusal :=
  writeResult s rd (boolWord (ltSigned (readReg s rs1) (readReg s rs2)))

/-- SLTU (R118). -/
def execSltu (rd rs1 rs2 : RegSpec) (s : State) : Host.Outcome State Fault Refusal :=
  writeResult s rd (boolWord (ltUnsigned (readReg s rs1) (readReg s rs2)))

/-- SRA (R120). -/
def execSra (rd rs1 rs2 : RegSpec) (s : State) : Host.Outcome State Fault Refusal :=
  writeResult s rd (shiftRightArith (readReg s rs1) (regAmount (readReg s rs2)))

/-- SRL (R121). -/
def execSrl (rd rs1 rs2 : RegSpec) (s : State) : Host.Outcome State Fault Refusal :=
  writeResult s rd (shiftRightLogical (readReg s rs1) (regAmount (readReg s rs2)))

/-- SLL (R122). -/
def execSll (rd rs1 rs2 : RegSpec) (s : State) : Host.Outcome State Fault Refusal :=
  writeResult s rd (shiftLeft (readReg s rs1) (regAmount (readReg s rs2)))

/-- MUL (R123). -/
def execMul (rd rs1 rs2 : RegSpec) (s : State) : Host.Outcome State Fault Refusal :=
  writeResult s rd (mulLow (readReg s rs1) (readReg s rs2))

/-- DIV (R125). -/
def execDiv (rd rs1 rs2 : RegSpec) (s : State) : Host.Outcome State Fault Refusal :=
  writeResult s rd (divSigned divCorners (readReg s rs1) (readReg s rs2))

/-- DIVU (R126). -/
def execDivu (rd rs1 rs2 : RegSpec) (s : State) : Host.Outcome State Fault Refusal :=
  writeResult s rd (divUnsigned divCorners (readReg s rs1) (readReg s rs2))

/-- REM (R127). -/
def execRem (rd rs1 rs2 : RegSpec) (s : State) : Host.Outcome State Fault Refusal :=
  writeResult s rd (remSigned divCorners (readReg s rs1) (readReg s rs2))

/-- REMU (R128). -/
def execRemu (rd rs1 rs2 : RegSpec) (s : State) : Host.Outcome State Fault Refusal :=
  writeResult s rd (remUnsigned divCorners (readReg s rs1) (readReg s rs2))

end Sys2Proof.Machine
end

