-- ==== Sys2Proof/WellFormed.lean ====
section
/-! DEFINITION. Which terms of Instr an instruction word can carry: the immediates of the branches and of JAL have bit 0
zero, because the encoding does not store it (30_encoding.md rules R68, R70; 45_branches.md rule R190). Every other operand
has exactly the bits of its field, so every other term is well formed. -/

namespace Sys2Proof

/-- Bit 0 of an immediate is zero. -/
def immEven {n : Nat} (imm : BitVec n) : Bool := !imm.getLsbD 0

/-- The instruction can be encoded. -/
def Instr.wf : Instr → Bool
  | .csrw _ _ _ => true
  | .add _ _ _ => true
  | .sub _ _ _ => true
  | .and _ _ _ => true
  | .or _ _ _ => true
  | .xor _ _ _ => true
  | .slt _ _ _ => true
  | .sltu _ _ _ => true
  | .sra _ _ _ => true
  | .srl _ _ _ => true
  | .sll _ _ _ => true
  | .mul _ _ _ => true
  | .div _ _ _ => true
  | .divu _ _ _ => true
  | .rem _ _ _ => true
  | .remu _ _ _ => true
  | .addi _ _ _ => true
  | .andi _ _ _ => true
  | .ori _ _ _ => true
  | .xori _ _ _ => true
  | .slti _ _ _ => true
  | .sltiu _ _ _ => true
  | .srai _ _ _ => true
  | .srli _ _ _ => true
  | .slli _ _ _ => true
  | .lui _ _ => true
  | .auipc _ _ => true
  | .lw _ _ _ => true
  | .sw _ _ _ => true
  | .lh _ _ _ => true
  | .lhu _ _ _ => true
  | .lb _ _ _ => true
  | .lbu _ _ _ => true
  | .sh _ _ _ => true
  | .sb _ _ _ => true
  | .jal _ imm => immEven imm
  | .jalr _ _ _ => true
  | .beq _ _ imm => immEven imm
  | .bne _ _ imm => immEven imm
  | .blt _ _ imm => immEven imm
  | .bge _ _ imm => immEven imm
  | .bltu _ _ imm => immEven imm
  | .bgeu _ _ imm => immEven imm

end Sys2Proof
end

