-- ==== Sys2Proof/Decode.lean ====
section
/-! DEFINITION. The decoder and the encoder (30_encoding.md). The decoder is total: it reads a list of bytes, or a 32-bit
word, and answers an instruction or the name of what is wrong. It looks at opcode, then funct3, then funct7 (R74).
The encoder is written from the same field tables (R61 to R73), and opcodeRows is the opcode map as masks and patterns (R75 to R83). -/

namespace Sys2Proof

/-- Why bytes are no instruction. -/
inductive DecodeError where
  /-- Fewer than the four bytes of an instruction (R60). -/
  | truncated
  /-- The word matches none of the 43 patterns (R84). -/
  | illegal (word : Word)
deriving DecidableEq, Repr

/-! ### Fields (R61) and immediates (R66 to R72) of an instruction word -/

/-- `inst[6:0]` (R61). -/
def fieldOpcode (w : Word) : BitVec 7 := w.extractLsb' 0 7

/-- `inst[11:7]` (R61). -/
def fieldRd (w : Word) : RegSpec := w.extractLsb' 7 5

/-- `inst[14:12]` (R61). -/
def fieldFunct3 (w : Word) : BitVec 3 := w.extractLsb' 12 3

/-- `inst[19:15]` (R61). -/
def fieldRs1 (w : Word) : RegSpec := w.extractLsb' 15 5

/-- `inst[24:20]` (R61); also the shift amount (R71). -/
def fieldRs2 (w : Word) : BitVec 5 := w.extractLsb' 20 5

/-- `inst[31:25]` (R61). -/
def fieldFunct7 (w : Word) : BitVec 7 := w.extractLsb' 25 7

/-- The field of the I-immediate, `inst[31:20]` (R66); also the CSR number (R72). -/
def fieldImmI (w : Word) : BitVec 12 := w.extractLsb' 20 12

/-- The field of the S-immediate, `inst[31:25] :: inst[11:7]` (R67). -/
def fieldImmS (w : Word) : BitVec 12 := w.extractLsb' 25 7 ++ w.extractLsb' 7 5

/-- The field of the B-immediate, `inst[31] :: inst[7] :: inst[30:25] :: inst[11:8] :: 0` (R68). -/
def fieldImmB (w : Word) : BitVec 13 :=
  w.extractLsb' 31 1 ++ w.extractLsb' 7 1 ++ w.extractLsb' 25 6 ++ w.extractLsb' 8 4 ++ 0#1

/-- The field of the U-immediate, `inst[31:12]` (R69). -/
def fieldImmU (w : Word) : BitVec 20 := w.extractLsb' 12 20

/-- The field of the J-immediate, `inst[31] :: inst[19:12] :: inst[20] :: inst[30:21] :: 0` (R70). -/
def fieldImmJ (w : Word) : BitVec 21 :=
  w.extractLsb' 31 1 ++ w.extractLsb' 12 8 ++ w.extractLsb' 20 1 ++ w.extractLsb' 21 10 ++ 0#1

/-! ### Decoding, one function per major opcode -/

/-- Opcode 0110011, register-register (R75). -/
def decodeRegReg (w : Word) : Except DecodeError Instr :=
  match fieldFunct7 w, fieldFunct3 w with
  | 0b0000000#7, 0b000#3 => .ok (.add (fieldRd w) (fieldRs1 w) (fieldRs2 w))
  | 0b0000000#7, 0b001#3 => .ok (.sll (fieldRd w) (fieldRs1 w) (fieldRs2 w))
  | 0b0000000#7, 0b010#3 => .ok (.slt (fieldRd w) (fieldRs1 w) (fieldRs2 w))
  | 0b0000000#7, 0b011#3 => .ok (.sltu (fieldRd w) (fieldRs1 w) (fieldRs2 w))
  | 0b0000000#7, 0b100#3 => .ok (.xor (fieldRd w) (fieldRs1 w) (fieldRs2 w))
  | 0b0000000#7, 0b101#3 => .ok (.srl (fieldRd w) (fieldRs1 w) (fieldRs2 w))
  | 0b0000000#7, 0b110#3 => .ok (.or (fieldRd w) (fieldRs1 w) (fieldRs2 w))
  | 0b0000000#7, 0b111#3 => .ok (.and (fieldRd w) (fieldRs1 w) (fieldRs2 w))
  | 0b0000001#7, 0b000#3 => .ok (.mul (fieldRd w) (fieldRs1 w) (fieldRs2 w))
  | 0b0000001#7, 0b100#3 => .ok (.div (fieldRd w) (fieldRs1 w) (fieldRs2 w))
  | 0b0000001#7, 0b101#3 => .ok (.divu (fieldRd w) (fieldRs1 w) (fieldRs2 w))
  | 0b0000001#7, 0b110#3 => .ok (.rem (fieldRd w) (fieldRs1 w) (fieldRs2 w))
  | 0b0000001#7, 0b111#3 => .ok (.remu (fieldRd w) (fieldRs1 w) (fieldRs2 w))
  | 0b0100000#7, 0b000#3 => .ok (.sub (fieldRd w) (fieldRs1 w) (fieldRs2 w))
  | 0b0100000#7, 0b101#3 => .ok (.sra (fieldRd w) (fieldRs1 w) (fieldRs2 w))
  | _, _ => .error (.illegal w)

/-- Opcode 0010011, `funct3` 101: the two right shifts by a constant (R76). -/
def decodeShiftRightImm (w : Word) : Except DecodeError Instr :=
  match fieldFunct7 w with
  | 0b0000000#7 => .ok (.srli (fieldRd w) (fieldRs1 w) (fieldRs2 w))
  | 0b0100000#7 => .ok (.srai (fieldRd w) (fieldRs1 w) (fieldRs2 w))
  | _ => .error (.illegal w)

/-- Opcode 0010011, `funct3` 001: the left shift by a constant (R76). -/
def decodeShiftLeftImm (w : Word) : Except DecodeError Instr :=
  match fieldFunct7 w with
  | 0b0000000#7 => .ok (.slli (fieldRd w) (fieldRs1 w) (fieldRs2 w))
  | _ => .error (.illegal w)

/-- Opcode 0010011, register-immediate (R76). -/
def decodeRegImm (w : Word) : Except DecodeError Instr :=
  match fieldFunct3 w with
  | 0b000#3 => .ok (.addi (fieldRd w) (fieldRs1 w) (fieldImmI w))
  | 0b001#3 => decodeShiftLeftImm w
  | 0b010#3 => .ok (.slti (fieldRd w) (fieldRs1 w) (fieldImmI w))
  | 0b011#3 => .ok (.sltiu (fieldRd w) (fieldRs1 w) (fieldImmI w))
  | 0b100#3 => .ok (.xori (fieldRd w) (fieldRs1 w) (fieldImmI w))
  | 0b101#3 => decodeShiftRightImm w
  | 0b110#3 => .ok (.ori (fieldRd w) (fieldRs1 w) (fieldImmI w))
  | 0b111#3 => .ok (.andi (fieldRd w) (fieldRs1 w) (fieldImmI w))
  | _ => .error (.illegal w)

/-- Opcode 0000011, loads (R77). -/
def decodeLoad (w : Word) : Except DecodeError Instr :=
  match fieldFunct3 w with
  | 0b000#3 => .ok (.lb (fieldRd w) (fieldRs1 w) (fieldImmI w))
  | 0b001#3 => .ok (.lh (fieldRd w) (fieldRs1 w) (fieldImmI w))
  | 0b010#3 => .ok (.lw (fieldRd w) (fieldRs1 w) (fieldImmI w))
  | 0b100#3 => .ok (.lbu (fieldRd w) (fieldRs1 w) (fieldImmI w))
  | 0b101#3 => .ok (.lhu (fieldRd w) (fieldRs1 w) (fieldImmI w))
  | _ => .error (.illegal w)

/-- Opcode 0100011, stores (R78). -/
def decodeStore (w : Word) : Except DecodeError Instr :=
  match fieldFunct3 w with
  | 0b000#3 => .ok (.sb (fieldRs2 w) (fieldRs1 w) (fieldImmS w))
  | 0b001#3 => .ok (.sh (fieldRs2 w) (fieldRs1 w) (fieldImmS w))
  | 0b010#3 => .ok (.sw (fieldRs2 w) (fieldRs1 w) (fieldImmS w))
  | _ => .error (.illegal w)

/-- Opcode 1100011, branches (R79). -/
def decodeBranch (w : Word) : Except DecodeError Instr :=
  match fieldFunct3 w with
  | 0b000#3 => .ok (.beq (fieldRs1 w) (fieldRs2 w) (fieldImmB w))
  | 0b001#3 => .ok (.bne (fieldRs1 w) (fieldRs2 w) (fieldImmB w))
  | 0b100#3 => .ok (.blt (fieldRs1 w) (fieldRs2 w) (fieldImmB w))
  | 0b101#3 => .ok (.bge (fieldRs1 w) (fieldRs2 w) (fieldImmB w))
  | 0b110#3 => .ok (.bltu (fieldRs1 w) (fieldRs2 w) (fieldImmB w))
  | 0b111#3 => .ok (.bgeu (fieldRs1 w) (fieldRs2 w) (fieldImmB w))
  | _ => .error (.illegal w)

/-- Opcode 1100111, JALR (R81). -/
def decodeJalr (w : Word) : Except DecodeError Instr :=
  match fieldFunct3 w with
  | 0b000#3 => .ok (.jalr (fieldRd w) (fieldRs1 w) (fieldImmI w))
  | _ => .error (.illegal w)

/-- Opcode 1110011, CSRW; the field `rd` is free here and is checked by the instruction's meaning (R83, R101). -/
def decodeSystem (w : Word) : Except DecodeError Instr :=
  match fieldFunct3 w with
  | 0b001#3 => .ok (.csrw (fieldImmI w) (fieldRs1 w) (fieldRd w))
  | _ => .error (.illegal w)

/-- The instruction a 32-bit word is, or the name of what is wrong (R74 to R84). -/
def decodeWord (w : Word) : Except DecodeError Instr :=
  match fieldOpcode w with
  | 0b0110011#7 => decodeRegReg w
  | 0b0010011#7 => decodeRegImm w
  | 0b0000011#7 => decodeLoad w
  | 0b0100011#7 => decodeStore w
  | 0b1100011#7 => decodeBranch w
  | 0b1101111#7 => .ok (.jal (fieldRd w) (fieldImmJ w))
  | 0b1100111#7 => decodeJalr w
  | 0b0110111#7 => .ok (.lui (fieldRd w) (fieldImmU w))
  | 0b0010111#7 => .ok (.auipc (fieldRd w) (fieldImmU w))
  | 0b1110011#7 => decodeSystem w
  | _ => .error (.illegal w)

/-- The decoder over bytes: four bytes, lowest address first, little-endian (R46, R60); the answer carries the bytes left. -/
def decode : List Byte → Except DecodeError (Instr × List Byte)
  | b0 :: b1 :: b2 :: b3 :: rest => (decodeWord (b3 ++ b2 ++ b1 ++ b0)).map fun i => (i, rest)
  | _ => .error .truncated

/-- The four bytes of a word in the order memory holds them, lowest address first (R31, R46). -/
def wordBytes (w : Word) : List Byte :=
  [w.extractLsb' 0 8, w.extractLsb' 8 8, w.extractLsb' 16 8, w.extractLsb' 24 8]

/-- The word of `nbits` bits that the opcode table numbers `w`; every higher bit is zero. -/
def tableWord (nbits w : Nat) : Word := BitVec.ofNat 32 (w % 2 ^ nbits)

/-- What the decoder reads from the word the opcode table numbers `w`, laid out in memory's order. -/
def decodeTableWord (nbits w : Nat) : Option Instr :=
  match decode (wordBytes (tableWord nbits w)) with
  | .ok (i, _) => some i
  | .error _ => none

/-! ### Encoding: the layouts (R62 to R65) -/

/-- R layout (R62): funct7, rs2, rs1, funct3, rd, opcode. -/
def encodeR (funct7 : BitVec 7) (rs2 rs1 : BitVec 5) (funct3 : BitVec 3) (rd : BitVec 5) (opcode : BitVec 7) : Word :=
  funct7 ++ rs2 ++ rs1 ++ funct3 ++ rd ++ opcode

/-- I layout (R63): imm, rs1, funct3, rd, opcode. -/
def encodeI (imm : BitVec 12) (rs1 : BitVec 5) (funct3 : BitVec 3) (rd : BitVec 5) (opcode : BitVec 7) : Word :=
  imm ++ rs1 ++ funct3 ++ rd ++ opcode

/-- S layout with the S-immediate (R64, R67). -/
def encodeS (imm : BitVec 12) (rs2 rs1 : BitVec 5) (funct3 : BitVec 3) (opcode : BitVec 7) : Word :=
  encodeR (imm.extractLsb' 5 7) rs2 rs1 funct3 (imm.extractLsb' 0 5) opcode

/-- S layout with the B-immediate (R64, R68, R190). -/
def encodeB (imm : BitVec 13) (rs2 rs1 : BitVec 5) (funct3 : BitVec 3) (opcode : BitVec 7) : Word :=
  encodeR (imm.extractLsb' 12 1 ++ imm.extractLsb' 5 6) rs2 rs1 funct3 (imm.extractLsb' 1 4 ++ imm.extractLsb' 11 1) opcode

/-- U layout (R65): the 20-bit field, rd, opcode. -/
def encodeU (imm : BitVec 20) (rd : BitVec 5) (opcode : BitVec 7) : Word :=
  imm ++ rd ++ opcode

/-- U layout with the J-immediate (R65, R70, R181). -/
def encodeJ (imm : BitVec 21) (rd : BitVec 5) (opcode : BitVec 7) : Word :=
  encodeU (imm.extractLsb' 20 1 ++ imm.extractLsb' 1 10 ++ imm.extractLsb' 11 1 ++ imm.extractLsb' 12 8) rd opcode

/-- The word of an instruction (R73, R75 to R83). -/
def encode : Instr → Word
  | .csrw csr rs1 rd => encodeI csr rs1 0b001#3 rd 0b1110011#7
  | .add rd rs1 rs2 => encodeR 0b0000000#7 rs2 rs1 0b000#3 rd 0b0110011#7
  | .sub rd rs1 rs2 => encodeR 0b0100000#7 rs2 rs1 0b000#3 rd 0b0110011#7
  | .and rd rs1 rs2 => encodeR 0b0000000#7 rs2 rs1 0b111#3 rd 0b0110011#7
  | .or rd rs1 rs2 => encodeR 0b0000000#7 rs2 rs1 0b110#3 rd 0b0110011#7
  | .xor rd rs1 rs2 => encodeR 0b0000000#7 rs2 rs1 0b100#3 rd 0b0110011#7
  | .slt rd rs1 rs2 => encodeR 0b0000000#7 rs2 rs1 0b010#3 rd 0b0110011#7
  | .sltu rd rs1 rs2 => encodeR 0b0000000#7 rs2 rs1 0b011#3 rd 0b0110011#7
  | .sra rd rs1 rs2 => encodeR 0b0100000#7 rs2 rs1 0b101#3 rd 0b0110011#7
  | .srl rd rs1 rs2 => encodeR 0b0000000#7 rs2 rs1 0b101#3 rd 0b0110011#7
  | .sll rd rs1 rs2 => encodeR 0b0000000#7 rs2 rs1 0b001#3 rd 0b0110011#7
  | .mul rd rs1 rs2 => encodeR 0b0000001#7 rs2 rs1 0b000#3 rd 0b0110011#7
  | .div rd rs1 rs2 => encodeR 0b0000001#7 rs2 rs1 0b100#3 rd 0b0110011#7
  | .divu rd rs1 rs2 => encodeR 0b0000001#7 rs2 rs1 0b101#3 rd 0b0110011#7
  | .rem rd rs1 rs2 => encodeR 0b0000001#7 rs2 rs1 0b110#3 rd 0b0110011#7
  | .remu rd rs1 rs2 => encodeR 0b0000001#7 rs2 rs1 0b111#3 rd 0b0110011#7
  | .addi rd rs1 imm => encodeI imm rs1 0b000#3 rd 0b0010011#7
  | .andi rd rs1 imm => encodeI imm rs1 0b111#3 rd 0b0010011#7
  | .ori rd rs1 imm => encodeI imm rs1 0b110#3 rd 0b0010011#7
  | .xori rd rs1 imm => encodeI imm rs1 0b100#3 rd 0b0010011#7
  | .slti rd rs1 imm => encodeI imm rs1 0b010#3 rd 0b0010011#7
  | .sltiu rd rs1 imm => encodeI imm rs1 0b011#3 rd 0b0010011#7
  | .srai rd rs1 shamt => encodeR 0b0100000#7 shamt rs1 0b101#3 rd 0b0010011#7
  | .srli rd rs1 shamt => encodeR 0b0000000#7 shamt rs1 0b101#3 rd 0b0010011#7
  | .slli rd rs1 shamt => encodeR 0b0000000#7 shamt rs1 0b001#3 rd 0b0010011#7
  | .lui rd imm => encodeU imm rd 0b0110111#7
  | .auipc rd imm => encodeU imm rd 0b0010111#7
  | .lw rd rs1 imm => encodeI imm rs1 0b010#3 rd 0b0000011#7
  | .sw rs2 rs1 imm => encodeS imm rs2 rs1 0b010#3 0b0100011#7
  | .lh rd rs1 imm => encodeI imm rs1 0b001#3 rd 0b0000011#7
  | .lhu rd rs1 imm => encodeI imm rs1 0b101#3 rd 0b0000011#7
  | .lb rd rs1 imm => encodeI imm rs1 0b000#3 rd 0b0000011#7
  | .lbu rd rs1 imm => encodeI imm rs1 0b100#3 rd 0b0000011#7
  | .sh rs2 rs1 imm => encodeS imm rs2 rs1 0b001#3 0b0100011#7
  | .sb rs2 rs1 imm => encodeS imm rs2 rs1 0b000#3 0b0100011#7
  | .jal rd imm => encodeJ imm rd 0b1101111#7
  | .jalr rd rs1 imm => encodeI imm rs1 0b000#3 rd 0b1100111#7
  | .beq rs1 rs2 imm => encodeB imm rs2 rs1 0b000#3 0b1100011#7
  | .bne rs1 rs2 imm => encodeB imm rs2 rs1 0b001#3 0b1100011#7
  | .blt rs1 rs2 imm => encodeB imm rs2 rs1 0b100#3 0b1100011#7
  | .bge rs1 rs2 imm => encodeB imm rs2 rs1 0b101#3 0b1100011#7
  | .bltu rs1 rs2 imm => encodeB imm rs2 rs1 0b110#3 0b1100011#7
  | .bgeu rs1 rs2 imm => encodeB imm rs2 rs1 0b111#3 0b1100011#7

/-! ### The opcode map as masks and patterns (R74 to R83) -/

/-- One row of the opcode map: `w` is this instruction exactly when `w &&& mask = pattern` (R74). -/
structure OpcodeRow where
  mnemonic : String
  mask : Word
  pattern : Word
deriving DecidableEq, Repr

/-- The word matches the row (R74). -/
def OpcodeRow.hits (r : OpcodeRow) (w : Word) : Bool := w &&& r.mask == r.pattern

/-- The row of an instruction. -/
def Instr.row : Instr → OpcodeRow
  | .csrw _ _ _ => ⟨"CSRW", 0x0000707F#32, 0x00001073#32⟩
  | .add _ _ _ => ⟨"ADD", 0xFE00707F#32, 0x00000033#32⟩
  | .sub _ _ _ => ⟨"SUB", 0xFE00707F#32, 0x40000033#32⟩
  | .and _ _ _ => ⟨"AND", 0xFE00707F#32, 0x00007033#32⟩
  | .or _ _ _ => ⟨"OR", 0xFE00707F#32, 0x00006033#32⟩
  | .xor _ _ _ => ⟨"XOR", 0xFE00707F#32, 0x00004033#32⟩
  | .slt _ _ _ => ⟨"SLT", 0xFE00707F#32, 0x00002033#32⟩
  | .sltu _ _ _ => ⟨"SLTU", 0xFE00707F#32, 0x00003033#32⟩
  | .sra _ _ _ => ⟨"SRA", 0xFE00707F#32, 0x40005033#32⟩
  | .srl _ _ _ => ⟨"SRL", 0xFE00707F#32, 0x00005033#32⟩
  | .sll _ _ _ => ⟨"SLL", 0xFE00707F#32, 0x00001033#32⟩
  | .mul _ _ _ => ⟨"MUL", 0xFE00707F#32, 0x02000033#32⟩
  | .div _ _ _ => ⟨"DIV", 0xFE00707F#32, 0x02004033#32⟩
  | .divu _ _ _ => ⟨"DIVU", 0xFE00707F#32, 0x02005033#32⟩
  | .rem _ _ _ => ⟨"REM", 0xFE00707F#32, 0x02006033#32⟩
  | .remu _ _ _ => ⟨"REMU", 0xFE00707F#32, 0x02007033#32⟩
  | .addi _ _ _ => ⟨"ADDI", 0x0000707F#32, 0x00000013#32⟩
  | .andi _ _ _ => ⟨"ANDI", 0x0000707F#32, 0x00007013#32⟩
  | .ori _ _ _ => ⟨"ORI", 0x0000707F#32, 0x00006013#32⟩
  | .xori _ _ _ => ⟨"XORI", 0x0000707F#32, 0x00004013#32⟩
  | .slti _ _ _ => ⟨"SLTI", 0x0000707F#32, 0x00002013#32⟩
  | .sltiu _ _ _ => ⟨"SLTIU", 0x0000707F#32, 0x00003013#32⟩
  | .srai _ _ _ => ⟨"SRAI", 0xFE00707F#32, 0x40005013#32⟩
  | .srli _ _ _ => ⟨"SRLI", 0xFE00707F#32, 0x00005013#32⟩
  | .slli _ _ _ => ⟨"SLLI", 0xFE00707F#32, 0x00001013#32⟩
  | .lui _ _ => ⟨"LUI", 0x0000007F#32, 0x00000037#32⟩
  | .auipc _ _ => ⟨"AUIPC", 0x0000007F#32, 0x00000017#32⟩
  | .lw _ _ _ => ⟨"LW", 0x0000707F#32, 0x00002003#32⟩
  | .sw _ _ _ => ⟨"SW", 0x0000707F#32, 0x00002023#32⟩
  | .lh _ _ _ => ⟨"LH", 0x0000707F#32, 0x00001003#32⟩
  | .lhu _ _ _ => ⟨"LHU", 0x0000707F#32, 0x00005003#32⟩
  | .lb _ _ _ => ⟨"LB", 0x0000707F#32, 0x00000003#32⟩
  | .lbu _ _ _ => ⟨"LBU", 0x0000707F#32, 0x00004003#32⟩
  | .sh _ _ _ => ⟨"SH", 0x0000707F#32, 0x00001023#32⟩
  | .sb _ _ _ => ⟨"SB", 0x0000707F#32, 0x00000023#32⟩
  | .jal _ _ => ⟨"JAL", 0x0000007F#32, 0x0000006F#32⟩
  | .jalr _ _ _ => ⟨"JALR", 0x0000707F#32, 0x00000067#32⟩
  | .beq _ _ _ => ⟨"BEQ", 0x0000707F#32, 0x00000063#32⟩
  | .bne _ _ _ => ⟨"BNE", 0x0000707F#32, 0x00001063#32⟩
  | .blt _ _ _ => ⟨"BLT", 0x0000707F#32, 0x00004063#32⟩
  | .bge _ _ _ => ⟨"BGE", 0x0000707F#32, 0x00005063#32⟩
  | .bltu _ _ _ => ⟨"BLTU", 0x0000707F#32, 0x00006063#32⟩
  | .bgeu _ _ _ => ⟨"BGEU", 0x0000707F#32, 0x00007063#32⟩

/-- The 43 rows of the opcode map, in the table's order (R75 to R83). -/
def opcodeRows : List OpcodeRow :=
  [⟨"CSRW", 0x0000707F#32, 0x00001073#32⟩,
   ⟨"ADD", 0xFE00707F#32, 0x00000033#32⟩,
   ⟨"SUB", 0xFE00707F#32, 0x40000033#32⟩,
   ⟨"AND", 0xFE00707F#32, 0x00007033#32⟩,
   ⟨"OR", 0xFE00707F#32, 0x00006033#32⟩,
   ⟨"XOR", 0xFE00707F#32, 0x00004033#32⟩,
   ⟨"SLT", 0xFE00707F#32, 0x00002033#32⟩,
   ⟨"SLTU", 0xFE00707F#32, 0x00003033#32⟩,
   ⟨"SRA", 0xFE00707F#32, 0x40005033#32⟩,
   ⟨"SRL", 0xFE00707F#32, 0x00005033#32⟩,
   ⟨"SLL", 0xFE00707F#32, 0x00001033#32⟩] ++
  [⟨"MUL", 0xFE00707F#32, 0x02000033#32⟩,
   ⟨"DIV", 0xFE00707F#32, 0x02004033#32⟩,
   ⟨"DIVU", 0xFE00707F#32, 0x02005033#32⟩,
   ⟨"REM", 0xFE00707F#32, 0x02006033#32⟩,
   ⟨"REMU", 0xFE00707F#32, 0x02007033#32⟩,
   ⟨"ADDI", 0x0000707F#32, 0x00000013#32⟩,
   ⟨"ANDI", 0x0000707F#32, 0x00007013#32⟩,
   ⟨"ORI", 0x0000707F#32, 0x00006013#32⟩,
   ⟨"XORI", 0x0000707F#32, 0x00004013#32⟩,
   ⟨"SLTI", 0x0000707F#32, 0x00002013#32⟩,
   ⟨"SLTIU", 0x0000707F#32, 0x00003013#32⟩] ++
  [⟨"SRAI", 0xFE00707F#32, 0x40005013#32⟩,
   ⟨"SRLI", 0xFE00707F#32, 0x00005013#32⟩,
   ⟨"SLLI", 0xFE00707F#32, 0x00001013#32⟩,
   ⟨"LUI", 0x0000007F#32, 0x00000037#32⟩,
   ⟨"AUIPC", 0x0000007F#32, 0x00000017#32⟩,
   ⟨"LW", 0x0000707F#32, 0x00002003#32⟩,
   ⟨"SW", 0x0000707F#32, 0x00002023#32⟩,
   ⟨"LH", 0x0000707F#32, 0x00001003#32⟩,
   ⟨"LHU", 0x0000707F#32, 0x00005003#32⟩,
   ⟨"LB", 0x0000707F#32, 0x00000003#32⟩,
   ⟨"LBU", 0x0000707F#32, 0x00004003#32⟩] ++
  [⟨"SH", 0x0000707F#32, 0x00001023#32⟩,
   ⟨"SB", 0x0000707F#32, 0x00000023#32⟩,
   ⟨"JAL", 0x0000007F#32, 0x0000006F#32⟩,
   ⟨"JALR", 0x0000707F#32, 0x00000067#32⟩,
   ⟨"BEQ", 0x0000707F#32, 0x00000063#32⟩,
   ⟨"BNE", 0x0000707F#32, 0x00001063#32⟩,
   ⟨"BLT", 0x0000707F#32, 0x00004063#32⟩,
   ⟨"BGE", 0x0000707F#32, 0x00005063#32⟩,
   ⟨"BLTU", 0x0000707F#32, 0x00006063#32⟩,
   ⟨"BGEU", 0x0000707F#32, 0x00007063#32⟩]

end Sys2Proof
end

