-- ==== Sys2Proof/Machine/Fetch.lean ====
section
/-! DEFINITION. Fetching the next instruction (20_memory.md rules R46, R47; 30_encoding.md rule R84), and placing one
where the next fetch reads it (70_reset_and_hazards.md rules R263, R267). -/

namespace Sys2Proof.Machine

/-- `Fetch(addr)`: alignment, validity, no byte stored to since reset, then the little-endian word (R46). -/
def fetch (s : State) (a : Word) : Except Fault Word :=
  if !aligned a .word then .error (.misalignedFetch a)
  else if !accessValid s a .word then .error (.fetchAccess a)
  else if anyStored s a .word then .error (.fetchAfterStore a)
  else .ok (readLE s.mem a .word)

/-- The instruction the next step runs, or why there is none: the run has ended (R266), the fetch faults (R46), or the
word is no instruction (R84). -/
def nextInstr (s : State) : Host.Outcome Instr Fault Refusal :=
  match s.run with
  | .ended v => .refused (.runEnded v)
  | .running =>
    match fetch s s.pc with
    | .error f => .fault f
    | .ok w =>
      match decodeWord w with
      | .error _ => .fault (.illegalInstruction s.pc w)
      | .ok i => .next i

/-- A rising list of addresses without those of an access. -/
def unmarkStored (l : List Nat) (as : List Word) : List Nat := l.filter fun k => !(as.any fun a => a.toNat == k)

/-- The host's load of one instruction word at the pc: the four bytes are written, they hold memory, they count as not
stored to by the program, and the run goes on (R263, R267). Log entry 9. -/
def placeWord (s : State) (w : Word) : State :=
  { s with
    mem := writeLE s.mem s.pc .word w
    stored := unmarkStored s.stored (accessBytes s.pc .word)
    memMap := if accessValid s s.pc .word then s.memMap else ⟨s.pc.toNat, 4⟩ :: s.memMap
    run := .running }

end Sys2Proof.Machine
end

