-- ==== Sys2Proof/Machine/Step.lean ====
section
/-! DEFINITION. One step: the next instruction is fetched, decoded and executed (00_scope.md rule R7), one instruction per
step (70_reset_and_hazards.md rule R275). -/

namespace Sys2Proof.Machine

/-- One step of the machine. -/
def step (s : State) : Host.Outcome State Fault Refusal :=
  match nextInstr s with
  | .next i => exec i s
  | .fault f => .fault f
  | .refused r => .refused r

/-- The state with one instruction, numbered as the opcode table numbers it, placed where the next step fetches it. -/
def State.withFetchWord (s : State) (nbits w : Nat) : State := placeWord s (tableWord nbits w)

end Sys2Proof.Machine
end

