-- ==== Sys2Proof/Safety.lean ====
section
/-! DEFINITION. What counts as a safe, a passed or a failed run, and the words claims are stated in: what two states have in
common, what an instruction may write, and the invariant of the machine. -/

namespace Sys2Proof.Machine

/-! ### How a run ends (R17, R266) -/

/-- The run has ended and passes (R266). -/
def runPassed (s : State) : Prop := ∃ v, s.run = .ended v ∧ Config.statusPass v = true

/-- The run has ended and fails (R266). -/
def runFailed (s : State) : Prop := ∃ v, s.run = .ended v ∧ Config.statusPass v = false

/-- Statistics tracking is on (R104); no rule reads it. -/
def statsTracking (s : State) : Bool := Config.statsEnabled s.statsEn

/-! ### What two states have in common -/

/-- Every x register but one reads the same. -/
def SameRegsBut (rd : RegSpec) (s t : State) : Prop := ∀ r, r ≠ rd → readReg t r = readReg s r

/-- Every x register reads the same. -/
def SameRegs (s t : State) : Prop := ∀ r, readReg t r = readReg s r

/-- Every byte of memory reads the same, but those at the given addresses. -/
def SameBytesBut (as : List Word) (s t : State) : Prop := ∀ a, a ∉ as → t.mem.read a = s.mem.read a

/-- Every byte of memory reads the same, and the same bytes count as stored to. -/
def SameMemory (s t : State) : Prop := (∀ a, t.mem.read a = s.mem.read a) ∧ t.stored = s.stored

/-- Both CSRs hold the same values. -/
def SameCsrs (s t : State) : Prop := t.status = s.status ∧ t.statsEn = s.statsEn

/-- The memory map, the mode and the outcome marker are the same. -/
def SameMachine (s t : State) : Prop := t.memMap = s.memMap ∧ t.mode = s.mode ∧ t.run = s.run

/-- From `s` to `t`: `rd` holds `v` (x0 holds 0 whatever `v` is), the pc is `pc`, and nothing else differs. -/
def WritesOnly (s t : State) (rd : RegSpec) (v pc : Word) : Prop :=
  readReg t rd = (if rd = 0#5 then 0#32 else v) ∧ SameRegsBut rd s t ∧ t.pc = pc ∧
    SameMemory s t ∧ SameCsrs s t ∧ SameMachine s t

/-- From `s` to `t`: the bytes of one access hold `v` little-endian and count as stored to, the pc is advanced, and
nothing else differs (R35, R47, R169). -/
def StoresOnly (s t : State) (a : Word) (w : Width) (v : Word) : Prop :=
  (∀ k, k < w.bytes → t.mem.read (a + BitVec.ofNat 32 k) = v.extractLsb' (8 * k) 8) ∧
    SameBytesBut (accessBytes a w) s t ∧
    (∀ b : Word, b.toNat ∈ t.stored ↔ b.toNat ∈ s.stored ∨ b ∈ accessBytes a w) ∧
    SameRegs s t ∧ t.pc = s.pc + 4#32 ∧ SameCsrs s t ∧ SameMachine s t

/-! ### Kinds of instructions -/

/-- The x register an instruction names as its destination; x0 for one that has none (R10, R169, R190). -/
def destination : Instr → RegSpec
  | .csrw _ _ _ => 0#5
  | .add rd _ _ => rd
  | .sub rd _ _ => rd
  | .and rd _ _ => rd
  | .or rd _ _ => rd
  | .xor rd _ _ => rd
  | .slt rd _ _ => rd
  | .sltu rd _ _ => rd
  | .sra rd _ _ => rd
  | .srl rd _ _ => rd
  | .sll rd _ _ => rd
  | .mul rd _ _ => rd
  | .div rd _ _ => rd
  | .divu rd _ _ => rd
  | .rem rd _ _ => rd
  | .remu rd _ _ => rd
  | .addi rd _ _ => rd
  | .andi rd _ _ => rd
  | .ori rd _ _ => rd
  | .xori rd _ _ => rd
  | .slti rd _ _ => rd
  | .sltiu rd _ _ => rd
  | .srai rd _ _ => rd
  | .srli rd _ _ => rd
  | .slli rd _ _ => rd
  | .lui rd _ => rd
  | .auipc rd _ => rd
  | .lw rd _ _ => rd
  | .sw _ _ _ => 0#5
  | .lh rd _ _ => rd
  | .lhu rd _ _ => rd
  | .lb rd _ _ => rd
  | .lbu rd _ _ => rd
  | .sh _ _ _ => 0#5
  | .sb _ _ _ => 0#5
  | .jal rd _ => rd
  | .jalr rd _ _ => rd
  | .beq _ _ _ => 0#5
  | .bne _ _ _ => 0#5
  | .blt _ _ _ => 0#5
  | .bge _ _ _ => 0#5
  | .bltu _ _ _ => 0#5
  | .bgeu _ _ _ => 0#5

/-- What an instruction does beside writing a register and advancing the pc. -/
inductive Kind where
  /-- Nothing: register-register and register-immediate arithmetic. -/
  | arith
  /-- Reads data memory at the address, with the width. -/
  | load (addr : Word) (w : Width)
  /-- Writes data memory at the address, with the width. -/
  | store (addr : Word) (w : Width)
  /-- Sets the pc to the target. -/
  | jump (target : Word)
  /-- May set the pc to the target. -/
  | branch (target : Word)
  /-- Writes a CSR. -/
  | csr (number : CsrNum) (rd : RegSpec)
deriving DecidableEq, Repr

/-- The kind of an instruction in a state, with the address or target its rule computes (R160, R181, R182, R190). -/
def kindOf (s : State) : Instr → Kind
  | .csrw csr _ rd => .csr csr rd
  | .add _ _ _ => .arith
  | .sub _ _ _ => .arith
  | .and _ _ _ => .arith
  | .or _ _ _ => .arith
  | .xor _ _ _ => .arith
  | .slt _ _ _ => .arith
  | .sltu _ _ _ => .arith
  | .sra _ _ _ => .arith
  | .srl _ _ _ => .arith
  | .sll _ _ _ => .arith
  | .mul _ _ _ => .arith
  | .div _ _ _ => .arith
  | .divu _ _ _ => .arith
  | .rem _ _ _ => .arith
  | .remu _ _ _ => .arith
  | .addi _ _ _ => .arith
  | .andi _ _ _ => .arith
  | .ori _ _ _ => .arith
  | .xori _ _ _ => .arith
  | .slti _ _ _ => .arith
  | .sltiu _ _ _ => .arith
  | .srai _ _ _ => .arith
  | .srli _ _ _ => .arith
  | .slli _ _ _ => .arith
  | .lui _ _ => .arith
  | .auipc _ _ => .arith
  | .lw _ rs1 imm => .load (loadAddress s rs1 imm) .word
  | .sw _ rs1 imm => .store (storeAddress s rs1 imm) .word
  | .lh _ rs1 imm => .load (loadAddress s rs1 imm) .half
  | .lhu _ rs1 imm => .load (loadAddress s rs1 imm) .half
  | .lb _ rs1 imm => .load (loadAddress s rs1 imm) .byte
  | .lbu _ rs1 imm => .load (loadAddress s rs1 imm) .byte
  | .sh _ rs1 imm => .store (storeAddress s rs1 imm) .half
  | .sb _ rs1 imm => .store (storeAddress s rs1 imm) .byte
  | .jal _ imm => .jump (jalTarget s imm)
  | .jalr _ rs1 imm => .jump (jalrTarget s rs1 imm)
  | .beq _ _ imm => .branch (branchTarget s imm)
  | .bne _ _ imm => .branch (branchTarget s imm)
  | .blt _ _ imm => .branch (branchTarget s imm)
  | .bge _ _ imm => .branch (branchTarget s imm)
  | .bltu _ _ imm => .branch (branchTarget s imm)
  | .bgeu _ _ imm => .branch (branchTarget s imm)

/-! ### The invariant -/

/-- An ended run ended with the value that `status` holds (R266). -/
def endedWithStatus (s : State) : Bool :=
  match s.run with
  | .running => true
  | .ended v => s.status == v

/-- The invariant of the machine: the pc is a multiple of 4 (R14), memory and the stored addresses are canonical, and an
ended run's exit value stands in `status`. -/
def inv (s : State) : Bool := targetAligned s.pc && s.mem.wf && storedWf s.stored && endedWithStatus s

/-- Every byte not stored to since reset reads as the image did at reset (R44, R47). -/
def SeesImage (image : Memory) (s : State) : Prop :=
  ∀ a : Word, a.toNat ∉ s.stored → s.mem.read a = image.read a

/-- The next state of an outcome, changed; a stop stays as it is. -/
def onNext (f : State → State) : Host.Outcome State Fault Refusal → Host.Outcome State Fault Refusal
  | .next t => .next (f t)
  | .fault r => .fault r
  | .refused r => .refused r

/-- Both CSRs set to given values. -/
def withCsrs (u v : Word) (s : State) : State := { s with status := u, statsEn := v }

end Sys2Proof.Machine
end

