-- ==== Sys2Proof/Certificates/Slice0/Obligations.lean ====
section
/-! DEFINITION. The statements for the provers. Every statement about an instruction holds for every operand, x0 as the
destination too (WritesOnly then says that nothing is written and x0 reads 0). Nothing rests on the values State.reset
picks for what the spec leaves open at reset (log entries 1 to 4): those statements are about State.resetWith, for every
such value. -/

open Sys2Proof Sys2Proof.Machine

/-! ### Encoding -/

/-- Decoding the word of a well-formed instruction gives the instruction back (R62 to R73). -/
def Obligations.DecodeOfEncode : Prop :=
  ∀ i : Instr, i.wf = true → decodeWord (encode i) = .ok i

/-- A word that decodes is the encoding of what it decodes to, which is well formed: no bit of it is dropped (R60 to R83). -/
def Obligations.EncodeOfDecode : Prop :=
  ∀ (w : Word) (i : Instr), decodeWord w = .ok i → i.wf = true ∧ encode i = w

/-- The decoder reads an instruction of a row exactly from the words that match the row under its mask; no word matches two
rows; a word that matches none is illegal (30_encoding.md section 4 and section 5; D6 for the illegal words). -/
def Obligations.DecodesExactlyTheOpcodeMap : Prop :=
  (∀ (w : Word), ∀ r ∈ opcodeRows, (w &&& r.mask = r.pattern ↔ ∃ i, decodeWord w = .ok i ∧ i.row = r)) ∧
  (∀ (w : Word), ∀ r ∈ opcodeRows, ∀ q ∈ opcodeRows,
    w &&& r.mask = r.pattern → w &&& q.mask = q.pattern → r = q) ∧
  (∀ (w : Word), (∀ r ∈ opcodeRows, w &&& r.mask ≠ r.pattern) → decodeWord w = .error (.illegal w))

/-- One word of each family, and words that are no instruction, written out from the spec's tables (95_test_vectors.md
sections 2.1 and 2.3). -/
def Obligations.WordsOfTheSpecDecode : Prop :=
  decodeTableWord 32 0x01551073 = some (.csrw 0x015#12 10#5 0#5) ∧
  decodeTableWord 32 0x402081B3 = some (.sub 3#5 1#5 2#5) ∧
  decodeTableWord 32 0x0220E1B3 = some (.rem 3#5 1#5 2#5) ∧
  decodeTableWord 32 0xF000E193 = some (.ori 3#5 1#5 (-256)) ∧
  decodeTableWord 32 0x4040D193 = some (.srai 3#5 1#5 4#5) ∧
  decodeTableWord 32 0xABCDE1B7 = some (.lui 3#5 0xABCDE#20) ∧
  decodeTableWord 32 0x0040A183 = some (.lw 3#5 1#5 4#12) ∧
  decodeTableWord 32 0xFE208FA3 = some (.sb 2#5 1#5 (-1)) ∧
  decodeTableWord 32 0xFF9FF06F = some (.jal 0#5 (-8)) ∧
  decodeTableWord 32 0x004280E7 = some (.jalr 1#5 5#5 4#12) ∧
  decodeTableWord 32 0xFE209EE3 = some (.bne 1#5 2#5 (-4)) ∧
  decodeTableWord 32 0x8020F063 = some (.bgeu 1#5 2#5 (-4096)) ∧
  decodeTableWord 32 0x00000000 = none ∧ decodeTableWord 32 0x00000073 = none ∧ decodeTableWord 32 0x02001033 = none

/-- The I- and S-immediates, bit by bit, as one expression, and their range (R66, R67). -/
def Obligations.ImmediatesIAndSBitByBit : Prop :=
  ∀ w : Word,
    ((∀ k, k < 32 → (immI (fieldImmI w)).getLsbD k = w.getLsbD (if 11 ≤ k then 31 else k + 20)) ∧
      immI (fieldImmI w) = (w.extractLsb' 20 12).signExtend 32 ∧
      -2048 ≤ (immI (fieldImmI w)).toInt ∧ (immI (fieldImmI w)).toInt ≤ 2047) ∧
    ((∀ k, k < 32 → (immS (fieldImmS w)).getLsbD k =
        w.getLsbD (if 11 ≤ k then 31 else if 5 ≤ k then k + 20 else k + 7)) ∧
      immS (fieldImmS w) = (w.extractLsb' 25 7 ++ w.extractLsb' 7 5).signExtend 32 ∧
      -2048 ≤ (immS (fieldImmS w)).toInt ∧ (immS (fieldImmS w)).toInt ≤ 2047)

/-- The B- and J-immediates, bit by bit, as one expression, even, and their range; the offset is not scaled (R68, R70). -/
def Obligations.ImmediatesBAndJBitByBit : Prop :=
  ∀ w : Word,
    ((∀ k, k < 32 → (immB (fieldImmB w)).getLsbD k =
        if 12 ≤ k then w.getLsbD 31 else if k = 11 then w.getLsbD 7 else if 5 ≤ k then w.getLsbD (k + 20)
        else if 1 ≤ k then w.getLsbD (k + 7) else false) ∧
      immB (fieldImmB w) = (w.extractLsb' 31 1 ++ w.extractLsb' 7 1 ++ w.extractLsb' 25 6 ++ w.extractLsb' 8 4 ++
        0#1 : BitVec 13).signExtend 32 ∧
      (immB (fieldImmB w)).toNat % 2 = 0 ∧ -4096 ≤ (immB (fieldImmB w)).toInt ∧ (immB (fieldImmB w)).toInt ≤ 4094 ∧
      ∀ s : State, branchTarget s (fieldImmB w) = s.pc + immB (fieldImmB w)) ∧
    ((∀ k, k < 32 → (immJ (fieldImmJ w)).getLsbD k =
        if 20 ≤ k then w.getLsbD 31 else if 12 ≤ k then w.getLsbD k else if k = 11 then w.getLsbD 20
        else if 1 ≤ k then w.getLsbD (k + 20) else false) ∧
      immJ (fieldImmJ w) = (w.extractLsb' 31 1 ++ w.extractLsb' 12 8 ++ w.extractLsb' 20 1 ++ w.extractLsb' 21 10 ++
        0#1 : BitVec 21).signExtend 32 ∧
      (immJ (fieldImmJ w)).toNat % 2 = 0 ∧ -1048576 ≤ (immJ (fieldImmJ w)).toInt ∧
      (immJ (fieldImmJ w)).toInt ≤ 1048574)

/-! ### The step -/

/-- A step runs the decoded instruction and adds nothing: in a run that goes on, at an aligned pc in valid memory none of
whose four bytes was stored to, when the bytes at the pc decode to `i`, the step is `exec i` (R46, R7; the conditions of the
fetch are decisions D3, D5 and D14). -/
def Obligations.StepRunsTheDecodedInstruction : Prop :=
  ∀ (s : State) (i : Instr), s.run = .running → s.pc.toNat % 4 = 0 →
    (∀ k, k < 4 → memValid s (s.pc + BitVec.ofNat 32 k) = true) →
    (∀ k, k < 4 → (s.pc + BitVec.ofNat 32 k).toNat ∉ s.stored) →
    decode [s.mem.read s.pc, s.mem.read (s.pc + 1#32), s.mem.read (s.pc + 2#32), s.mem.read (s.pc + 3#32)] = .ok (i, []) →
    step s = exec i s

/-- Where a fetch stops, in the order of its checks: a pc that is no multiple of 4, a byte outside valid memory, a byte
stored to since reset. The model follows decisions D3, D5 and D14 of the spec (20_memory.md section 7). -/
def Obligations.FetchStopsInOrder : Prop :=
  ∀ s : State, s.run = .running →
    (s.pc.toNat % 4 ≠ 0 → step s = .fault (.misalignedFetch s.pc)) ∧
    (s.pc.toNat % 4 = 0 → (∃ k, k < 4 ∧ memValid s (s.pc + BitVec.ofNat 32 k) = false) →
      step s = .fault (.fetchAccess s.pc)) ∧
    (s.pc.toNat % 4 = 0 → (∀ k, k < 4 → memValid s (s.pc + BitVec.ofNat 32 k) = true) →
      (∃ k, k < 4 ∧ (s.pc + BitVec.ofNat 32 k).toNat ∈ s.stored) → step s = .fault (.fetchAfterStore s.pc))

/-- A fetched word that matches no row of the opcode map stops the step with the pc and the word (30_encoding.md section 5,
decision D6). -/
def Obligations.IllegalWordFaults : Prop :=
  ∀ (s : State) (w : Word), s.run = .running → fetch s s.pc = .ok w → (∀ r ∈ opcodeRows, w &&& r.mask ≠ r.pattern) →
    step s = .fault (.illegalInstruction s.pc w)

/-- An ended run has no next step (70_reset_and_hazards.md section 3, decision D9; log entry 8). -/
def Obligations.EndedRunHasNoStep : Prop :=
  ∀ (s : State) (v : Word), s.run = .ended v → step s = .refused (.runEnded v)

/-- The word placed at an aligned pc is the next instruction to run (log entry 9). -/
def Obligations.PlacedWordRunsNext : Prop :=
  ∀ (s : State) (n : Nat) (i : Instr), s.pc.toNat % 4 = 0 → decodeTableWord 32 n = some i →
    step (s.withFetchWord 32 n) = exec i (s.withFetchWord 32 n)

/-! ### Reset and invariants -/

/-- What reset leaves, whatever the spec leaves open at reset is: the pc at the reset vector, x0 zero, x1 to x31 and the
CSRs any given values, memory any given image, M-mode, nothing stored to, the run going on (10_state.md section 8). -/
def Obligations.ResetLeaves : Prop :=
  ∀ (x : Vector Word 31) (st se : Word) (map : List Region) (image : Memory),
    let s := State.resetWith x st se map image
    s.pc = 0x00080000#32 ∧ readReg s 0#5 = 0#32 ∧
      (∀ (k : Nat) (h : k < 31), readReg s (BitVec.ofNat 5 (k + 1)) = x[k]) ∧
      s.status = st ∧ s.statsEn = se ∧ (∀ a, s.mem.read a = image.read a) ∧ s.memMap = map ∧ s.mode = .machine ∧
      s.stored = [] ∧ s.run = .running

/-- The invariant holds at reset, for every canonical image and every choice of what the spec leaves open, and at
State.reset. -/
def Obligations.InvariantAtReset : Prop :=
  (∀ (x : Vector Word 31) (st se : Word) (map : List Region) (image : Memory), image.wf = true →
    inv (State.resetWith x st se map image) = true) ∧ inv State.reset = true

/-- Every step keeps the invariant: the pc is a multiple of 4 (R14), memory and the stored addresses are canonical, an ended
run's exit value stands in `status`. -/
def Obligations.InvariantKeptByStep : Prop :=
  ∀ s t : State, inv s = true → step s = .next t → inv t = true

/-- At reset every byte reads as the image. -/
def Obligations.ImageSeenAtReset : Prop :=
  ∀ (x : Vector Word 31) (st se : Word) (map : List Region) (image : Memory),
    SeesImage image (State.resetWith x st se map image)

/-- Code is never what the program stored: as long as every byte not stored to reads as the image, a fetch gives the word
of the image, and every step keeps it so (20_memory.md sections 6 and 7, decision D14). -/
def Obligations.FetchedCodeIsTheImage : Prop :=
  ∀ (image : Memory) (s : State), SeesImage image s →
    (∀ w, fetch s s.pc = .ok w → w = readLE image s.pc .word) ∧ ∀ t, step s = .next t → SeesImage image t

/-! ### Rules about every instruction -/

/-- No step changes the memory map or the mode, and a byte stored to stays so. The first clause is the model's choice: that
the map is data no step changes is log entry 4 (DESIGN CHOICE; the spec leaves MemValid a parameter, R41, decision D3). The
mode clause rests on log entry 19 (DESIGN CHOICE): the mode, M alone in R228, is a type of one value, so the clause cannot
fail. The third clause keeps the record that R47 needs, the spec's decision D14 (log entry 13). -/
def Obligations.StepKeepsMapModeAndStored : Prop :=
  ∀ s t : State, step s = .next t → t.memMap = s.memMap ∧ t.mode = s.mode ∧ ∀ a ∈ s.stored, a ∈ t.stored

/-- No instruction is refused: each completes or takes a named fault. -/
def Obligations.NoInstructionIsRefused : Prop :=
  ∀ (i : Instr) (s : State) (r : Refusal), exec i s ≠ .refused r

/-- Every fault of an instruction has the cause the fault list names, and carries what it names: alignment before validity
for data, `rd` before the number for CSRW (60_exceptions.md sections 1 and 3, decisions D3 to D8 and D19). -/
def Obligations.FaultsHaveTheirCauses : Prop :=
  ∀ (i : Instr) (s : State) (f : Fault), exec i s = .fault f →
    (∃ a w, kindOf s i = .load a w ∧
      ((aligned a w = false ∧ f = .misalignedLoad a w.bytes) ∨
       (aligned a w = true ∧ accessValid s a w = false ∧ f = .loadAccess a w.bytes))) ∨
    (∃ a w, kindOf s i = .store a w ∧
      ((aligned a w = false ∧ f = .misalignedStore a w.bytes) ∨
       (aligned a w = true ∧ accessValid s a w = false ∧ f = .storeAccess a w.bytes))) ∨
    (∃ t, (kindOf s i = .jump t ∨ kindOf s i = .branch t) ∧ t.toNat % 4 ≠ 0 ∧ f = .misalignedFetch t) ∨
    (∃ n rd, kindOf s i = .csr n rd ∧
      ((rd ≠ 0#5 ∧ f = .unsupportedCsrForm rd) ∨
       (rd = 0#5 ∧ n ≠ 0x015#12 ∧ n ≠ 0x00A#12 ∧ f = .unsupportedCsr n)))

/-- An instruction that does not set the pc by its rule ends at pc + 4, modulo 2^32 (00_scope.md section 5.3; the wrap is
decision D2). -/
def Obligations.PcAdvancesByFour : Prop :=
  ∀ (i : Instr) (s t : State), exec i s = .next t → (∀ p, kindOf s i ≠ .jump p ∧ kindOf s i ≠ .branch p) →
    t.pc.toNat = (s.pc.toNat + 4) % 2 ^ 32

/-- No instruction writes an x register but the one it names as its destination, and x0 reads 0 after every instruction
(10_state.md section 1). -/
def Obligations.OnlyTheDestinationIsWritten : Prop :=
  ∀ (i : Instr) (s t : State), exec i s = .next t → SameRegsBut (destination i) s t ∧ readReg t 0#5 = 0#32

/-- Only a store changes memory or the set of stored bytes (43_memory_instrs.md, 20_memory.md section 3). -/
def Obligations.OnlyStoresWriteMemory : Prop :=
  ∀ (i : Instr) (s t : State), exec i s = .next t → (∀ a w, kindOf s i ≠ .store a w) → SameMemory s t

/-- Only CSRW changes a CSR or ends the run (10_state.md section 4). -/
def Obligations.OnlyCsrwWritesCsrs : Prop :=
  ∀ (i : Instr) (s t : State), exec i s = .next t → (∀ n rd, kindOf s i ≠ .csr n rd) → SameCsrs s t ∧ t.run = s.run

/-- A step ends the run exactly when its instruction is the CSRW to `status`, and with the value written
(70_reset_and_hazards.md section 3, decision D9). -/
def Obligations.RunEndsOnlyByStatus : Prop :=
  ∀ (s t : State) (v : Word), step s = .next t →
    (t.run = .ended v ↔ ∃ rs1, nextInstr s = .next (.csrw 0x015#12 rs1 0#5) ∧ v = readReg s rs1)

/-- No instruction reads a CSR: whatever `status` and `stats_en` hold, a step does the same to everything else, and stops
alike (10_state.md section 4; 40_csr.md, decision D10). -/
def Obligations.CsrsInfluenceNothing : Prop :=
  ∀ (s : State) (u v : Word), onNext (withCsrs 0#32 0#32) (step (withCsrs u v s)) = onNext (withCsrs 0#32 0#32) (step s)

/-! ### Register-register and register-immediate arithmetic -/

/-- ADD, SUB, ADDI: the exact sum or difference modulo 2^32 (41_reg_reg_arith.md section 1, 42_reg_imm_arith.md). -/
def Obligations.AddSubAddiResult : Prop :=
  ∀ (s : State) (rd rs1 rs2 : RegSpec) (imm : BitVec 12),
    (∃ t, exec (.add rd rs1 rs2) s = .next t ∧
      WritesOnly s t rd (BitVec.ofNat 32 (((readReg s rs1).toNat + (readReg s rs2).toNat) % 2 ^ 32)) (s.pc + 4#32)) ∧
    (∃ t, exec (.sub rd rs1 rs2) s = .next t ∧
      WritesOnly s t rd (BitVec.ofInt 32 ((readReg s rs1).toInt - (readReg s rs2).toInt)) (s.pc + 4#32)) ∧
    (∃ t, exec (.addi rd rs1 imm) s = .next t ∧
      WritesOnly s t rd (BitVec.ofInt 32 ((readReg s rs1).toInt + imm.toInt)) (s.pc + 4#32))

/-- AND, OR, XOR: their words decode to them, and they write the bitwise result, change nothing else but the pc, and raise
nothing (R113, R114, R115). -/
def Obligations.LogicByRegister : Prop :=
  (∀ w : Word,
    (w &&& 0xFE00707F#32 = 0x00007033#32 → decodeWord w = .ok (.and (fieldRd w) (fieldRs1 w) (fieldRs2 w))) ∧
    (w &&& 0xFE00707F#32 = 0x00006033#32 → decodeWord w = .ok (.or (fieldRd w) (fieldRs1 w) (fieldRs2 w))) ∧
    (w &&& 0xFE00707F#32 = 0x00004033#32 → decodeWord w = .ok (.xor (fieldRd w) (fieldRs1 w) (fieldRs2 w)))) ∧
  ∀ (s : State) (rd rs1 rs2 : RegSpec),
    (∃ t, exec (.and rd rs1 rs2) s = .next t ∧
      WritesOnly s t rd (readReg s rs1 &&& readReg s rs2) (s.pc + 4#32)) ∧
    (∃ t, exec (.or rd rs1 rs2) s = .next t ∧
      WritesOnly s t rd (readReg s rs1 ||| readReg s rs2) (s.pc + 4#32)) ∧
    (∃ t, exec (.xor rd rs1 rs2) s = .next t ∧
      WritesOnly s t rd (readReg s rs1 ^^^ readReg s rs2) (s.pc + 4#32))

/-- ANDI, ORI, XORI: their words decode to them, and they write the bitwise result with the sign-extended immediate, change
nothing else but the pc, and raise nothing (R141, R142, R143). -/
def Obligations.LogicByImmediate : Prop :=
  (∀ w : Word,
    (w &&& 0x0000707F#32 = 0x00007013#32 → decodeWord w = .ok (.andi (fieldRd w) (fieldRs1 w) (fieldImmI w))) ∧
    (w &&& 0x0000707F#32 = 0x00006013#32 → decodeWord w = .ok (.ori (fieldRd w) (fieldRs1 w) (fieldImmI w))) ∧
    (w &&& 0x0000707F#32 = 0x00004013#32 → decodeWord w = .ok (.xori (fieldRd w) (fieldRs1 w) (fieldImmI w)))) ∧
  ∀ (s : State) (rd rs1 : RegSpec) (imm : BitVec 12),
    (∃ t, exec (.andi rd rs1 imm) s = .next t ∧
      WritesOnly s t rd (readReg s rs1 &&& imm.signExtend 32) (s.pc + 4#32)) ∧
    (∃ t, exec (.ori rd rs1 imm) s = .next t ∧
      WritesOnly s t rd (readReg s rs1 ||| imm.signExtend 32) (s.pc + 4#32)) ∧
    (∃ t, exec (.xori rd rs1 imm) s = .next t ∧
      WritesOnly s t rd (readReg s rs1 ^^^ imm.signExtend 32) (s.pc + 4#32))

/-- SLT, SLTU, SLTI, SLTIU: 1 when the comparison holds and 0 when it does not, written in both cases; SLTIU compares with
the sign-extended immediate as unsigned. That it is written in both cases is C15 of 90_conflicts.md; the value 1 is the
spec's from general knowledge (41_reg_reg_arith.md section 1; G8 of 93_implementation_defined.md; log entry 15). -/
def Obligations.SetLessThanResult : Prop :=
  ∀ (s : State) (rd rs1 rs2 : RegSpec) (imm : BitVec 12),
    (∃ t, exec (.slt rd rs1 rs2) s = .next t ∧
      WritesOnly s t rd (if (readReg s rs1).toInt < (readReg s rs2).toInt then 1#32 else 0#32) (s.pc + 4#32)) ∧
    (∃ t, exec (.sltu rd rs1 rs2) s = .next t ∧
      WritesOnly s t rd (if (readReg s rs1).toNat < (readReg s rs2).toNat then 1#32 else 0#32) (s.pc + 4#32)) ∧
    (∃ t, exec (.slti rd rs1 imm) s = .next t ∧
      WritesOnly s t rd (if (readReg s rs1).toInt < imm.toInt then 1#32 else 0#32) (s.pc + 4#32)) ∧
    (∃ t, exec (.sltiu rd rs1 imm) s = .next t ∧
      WritesOnly s t rd (if (readReg s rs1).toNat < (imm.signExtend 32).toNat then 1#32 else 0#32) (s.pc + 4#32))

/-- SRA, SRL, SLL: their words decode to them; the amount is the low five bits of the second register, the bits above are
ignored; the result bit by bit, the sign bit, zeros or zeros filling (R119, R120, R121, R122). -/
def Obligations.ShiftsByRegister : Prop :=
  (∀ w : Word,
    (w &&& 0xFE00707F#32 = 0x40005033#32 → decodeWord w = .ok (.sra (fieldRd w) (fieldRs1 w) (fieldRs2 w))) ∧
    (w &&& 0xFE00707F#32 = 0x00005033#32 → decodeWord w = .ok (.srl (fieldRd w) (fieldRs1 w) (fieldRs2 w))) ∧
    (w &&& 0xFE00707F#32 = 0x00001033#32 → decodeWord w = .ok (.sll (fieldRd w) (fieldRs1 w) (fieldRs2 w)))) ∧
  ∀ (s : State) (rd rs1 rs2 : RegSpec),
    let a := readReg s rs1
    let n := (readReg s rs2).toNat % 32
    (∃ t v, exec (.sra rd rs1 rs2) s = .next t ∧ WritesOnly s t rd v (s.pc + 4#32) ∧
      ∀ k, k < 32 → v.getLsbD k = if k + n < 32 then a.getLsbD (k + n) else a.getLsbD 31) ∧
    (∃ t v, exec (.srl rd rs1 rs2) s = .next t ∧ WritesOnly s t rd v (s.pc + 4#32) ∧
      ∀ k, k < 32 → v.getLsbD k = if k + n < 32 then a.getLsbD (k + n) else false) ∧
    (∃ t v, exec (.sll rd rs1 rs2) s = .next t ∧ WritesOnly s t rd v (s.pc + 4#32) ∧
      ∀ k, k < 32 → v.getLsbD k = if n ≤ k then a.getLsbD (k - n) else false)

/-- SRAI, SRLI, SLLI: their words decode to them; the amount is the unsigned 5-bit field, every value of it a shift; the
result bit by bit (R147, R148; R146 but for its remark on illegal words, which DecodesExactlyTheOpcodeMap covers). -/
def Obligations.ShiftsByConstant : Prop :=
  (∀ w : Word,
    (w &&& 0xFE00707F#32 = 0x40005013#32 → decodeWord w = .ok (.srai (fieldRd w) (fieldRs1 w) (w.extractLsb' 20 5))) ∧
    (w &&& 0xFE00707F#32 = 0x00005013#32 → decodeWord w = .ok (.srli (fieldRd w) (fieldRs1 w) (w.extractLsb' 20 5))) ∧
    (w &&& 0xFE00707F#32 = 0x00001013#32 → decodeWord w = .ok (.slli (fieldRd w) (fieldRs1 w) (w.extractLsb' 20 5)))) ∧
  ∀ (s : State) (rd rs1 : RegSpec) (shamt : BitVec 5),
    let a := readReg s rs1
    let n := shamt.toNat
    (∃ t v, exec (.srai rd rs1 shamt) s = .next t ∧ WritesOnly s t rd v (s.pc + 4#32) ∧
      ∀ k, k < 32 → v.getLsbD k = if k + n < 32 then a.getLsbD (k + n) else a.getLsbD 31) ∧
    (∃ t v, exec (.srli rd rs1 shamt) s = .next t ∧ WritesOnly s t rd v (s.pc + 4#32) ∧
      ∀ k, k < 32 → v.getLsbD k = if k + n < 32 then a.getLsbD (k + n) else false) ∧
    (∃ t v, exec (.slli rd rs1 shamt) s = .next t ∧ WritesOnly s t rd v (s.pc + 4#32) ∧
      ∀ k, k < 32 → v.getLsbD k = if n ≤ k then a.getLsbD (k - n) else false)

/-- LUI: its words decode to it, and it writes the 20-bit field above twelve zeros (R149). -/
def Obligations.LuiResult : Prop :=
  (∀ w : Word, w &&& 0x0000007F#32 = 0x00000037#32 → decodeWord w = .ok (.lui (fieldRd w) (w.extractLsb' 12 20))) ∧
  ∀ (s : State) (rd : RegSpec) (imm : BitVec 20),
    ∃ t v, exec (.lui rd imm) s = .next t ∧ WritesOnly s t rd v (s.pc + 4#32) ∧
      v.toNat = imm.toNat * 2 ^ 12 ∧ v.extractLsb' 12 20 = imm ∧ v.extractLsb' 0 12 = 0#12

/-- AUIPC: the address of the instruction plus the field shifted left once, modulo 2^32 (42_reg_imm_arith.md; D2). -/
def Obligations.AuipcResult : Prop :=
  ∀ (s : State) (rd : RegSpec) (imm : BitVec 20),
    ∃ t, exec (.auipc rd imm) s = .next t ∧
      WritesOnly s t rd (BitVec.ofNat 32 ((s.pc.toNat + imm.toNat * 2 ^ 12) % 2 ^ 32)) (s.pc + 4#32)

/-- MUL: the low 32 bits of the product, the same read signed or unsigned (41_reg_reg_arith.md section 1; D12). -/
def Obligations.MulResult : Prop :=
  ∀ (s : State) (rd rs1 rs2 : RegSpec),
    ∃ t v, exec (.mul rd rs1 rs2) s = .next t ∧ WritesOnly s t rd v (s.pc + 4#32) ∧
      v.toNat = (readReg s rs1).toNat * (readReg s rs2).toNat % 2 ^ 32 ∧
      v = BitVec.ofInt 32 ((readReg s rs1).toInt * (readReg s rs2).toInt)

/-- DIV and REM off the corners: dividend = divisor * quotient + remainder, the remainder smaller than the divisor and with
the dividend's sign, so the quotient is rounded toward zero (41_reg_reg_arith.md section 1; D12). -/
def Obligations.DivRemLaw : Prop :=
  ∀ (s : State) (rd rs1 rs2 : RegSpec),
    let a := readReg s rs1
    let b := readReg s rs2
    b ≠ 0#32 → ¬(a = 0x80000000#32 ∧ b = 0xFFFFFFFF#32) →
    ∃ t u q r, exec (.div rd rs1 rs2) s = .next t ∧ WritesOnly s t rd q (s.pc + 4#32) ∧
      exec (.rem rd rs1 rs2) s = .next u ∧ WritesOnly s u rd r (s.pc + 4#32) ∧
      a.toInt = b.toInt * q.toInt + r.toInt ∧ r.toInt.natAbs < b.toInt.natAbs ∧
      (r.toInt = 0 ∨ (r.toInt < 0 ↔ a.toInt < 0))

/-- DIVU and REMU off the corner: dividend = divisor * quotient + remainder, the remainder below the divisor
(41_reg_reg_arith.md section 1). -/
def Obligations.DivuRemuLaw : Prop :=
  ∀ (s : State) (rd rs1 rs2 : RegSpec),
    let a := readReg s rs1
    let b := readReg s rs2
    b ≠ 0#32 →
    ∃ t u q r, exec (.divu rd rs1 rs2) s = .next t ∧ WritesOnly s t rd q (s.pc + 4#32) ∧
      exec (.remu rd rs1 rs2) s = .next u ∧ WritesOnly s u rd r (s.pc + 4#32) ∧
      a.toNat = b.toNat * q.toNat + r.toNat ∧ r.toNat < b.toNat

/-- The division corners complete with the values of the corner table, which the spec takes from RV32M (D11; log entry 7):
a zero divisor, and -2^31 by -1. -/
def Obligations.DivisionCorners : Prop :=
  ∀ (s : State) (rd rs1 rs2 : RegSpec),
    (readReg s rs2 = 0#32 →
      (∃ t, exec (.div rd rs1 rs2) s = .next t ∧ WritesOnly s t rd 0xFFFFFFFF#32 (s.pc + 4#32)) ∧
      (∃ t, exec (.divu rd rs1 rs2) s = .next t ∧ WritesOnly s t rd 0xFFFFFFFF#32 (s.pc + 4#32)) ∧
      (∃ t, exec (.rem rd rs1 rs2) s = .next t ∧ WritesOnly s t rd (readReg s rs1) (s.pc + 4#32)) ∧
      (∃ t, exec (.remu rd rs1 rs2) s = .next t ∧ WritesOnly s t rd (readReg s rs1) (s.pc + 4#32))) ∧
    (readReg s rs1 = 0x80000000#32 → readReg s rs2 = 0xFFFFFFFF#32 →
      (∃ t, exec (.div rd rs1 rs2) s = .next t ∧ WritesOnly s t rd 0x80000000#32 (s.pc + 4#32)) ∧
      (∃ t, exec (.rem rd rs1 rs2) s = .next t ∧ WritesOnly s t rd 0#32 (s.pc + 4#32)))

/-! ### Loads and stores -/

/-- The effective address is the base plus the signed offset modulo 2^32, for loads and for stores; from x0 it is the offset
alone (43_memory_instrs.md). -/
def Obligations.EffectiveAddressWraps : Prop :=
  ∀ (s : State) (rs1 : RegSpec) (imm : BitVec 12),
    loadAddress s rs1 imm = BitVec.ofInt 32 ((readReg s rs1).toInt + imm.toInt) ∧
    storeAddress s rs1 imm = BitVec.ofInt 32 ((readReg s rs1).toInt + imm.toInt) ∧
    loadAddress s 0#5 imm = imm.signExtend 32 ∧ storeAddress s 0#5 imm = imm.signExtend 32

/-- LW, LH, LHU, LB, LBU at an aligned address in valid memory complete: byte k of the value is the byte at address + k, the
bits above are copies of its top bit (LH, LB) or zero (LHU, LBU), and only `rd` and the pc change
(43_memory_instrs.md; 20_memory.md sections 2 and 3). -/
def Obligations.LoadsComplete : Prop :=
  ∀ (s : State) (rd rs1 : RegSpec) (imm : BitVec 12),
    let a := loadAddress s rs1 imm
    (a.toNat % 4 = 0 → (∀ k, k < 4 → memValid s (a + BitVec.ofNat 32 k) = true) →
      ∃ t v, exec (.lw rd rs1 imm) s = .next t ∧ WritesOnly s t rd v (s.pc + 4#32) ∧
        ∀ k, k < 4 → v.extractLsb' (8 * k) 8 = s.mem.read (a + BitVec.ofNat 32 k)) ∧
    (a.toNat % 2 = 0 → (∀ k, k < 2 → memValid s (a + BitVec.ofNat 32 k) = true) →
      (∃ t v, exec (.lh rd rs1 imm) s = .next t ∧ WritesOnly s t rd v (s.pc + 4#32) ∧
        (∀ k, k < 2 → v.extractLsb' (8 * k) 8 = s.mem.read (a + BitVec.ofNat 32 k)) ∧
        ∀ j, 16 ≤ j → j < 32 → v.getLsbD j = v.getLsbD 15) ∧
      (∃ t v, exec (.lhu rd rs1 imm) s = .next t ∧ WritesOnly s t rd v (s.pc + 4#32) ∧
        (∀ k, k < 2 → v.extractLsb' (8 * k) 8 = s.mem.read (a + BitVec.ofNat 32 k)) ∧
        ∀ j, 16 ≤ j → j < 32 → v.getLsbD j = false)) ∧
    (memValid s a = true →
      (∃ t v, exec (.lb rd rs1 imm) s = .next t ∧ WritesOnly s t rd v (s.pc + 4#32) ∧
        v.extractLsb' 0 8 = s.mem.read a ∧ ∀ j, 8 ≤ j → j < 32 → v.getLsbD j = v.getLsbD 7) ∧
      (∃ t v, exec (.lbu rd rs1 imm) s = .next t ∧ WritesOnly s t rd v (s.pc + 4#32) ∧
        v.extractLsb' 0 8 = s.mem.read a ∧ ∀ j, 8 ≤ j → j < 32 → v.getLsbD j = false))

/-- Where a load stops: a misaligned address first, then a byte outside valid memory (20_memory.md sections 3 and 4,
decisions D3 and D4). -/
def Obligations.LoadsFault : Prop :=
  ∀ (s : State) (rd rs1 : RegSpec) (imm : BitVec 12),
    let a := loadAddress s rs1 imm
    (a.toNat % 4 ≠ 0 → exec (.lw rd rs1 imm) s = .fault (.misalignedLoad a 4)) ∧
    (a.toNat % 4 = 0 → (∃ k, k < 4 ∧ memValid s (a + BitVec.ofNat 32 k) = false) →
      exec (.lw rd rs1 imm) s = .fault (.loadAccess a 4)) ∧
    (a.toNat % 2 ≠ 0 → exec (.lh rd rs1 imm) s = .fault (.misalignedLoad a 2) ∧
      exec (.lhu rd rs1 imm) s = .fault (.misalignedLoad a 2)) ∧
    (a.toNat % 2 = 0 → (∃ k, k < 2 ∧ memValid s (a + BitVec.ofNat 32 k) = false) →
      exec (.lh rd rs1 imm) s = .fault (.loadAccess a 2) ∧ exec (.lhu rd rs1 imm) s = .fault (.loadAccess a 2)) ∧
    (memValid s a = false →
      exec (.lb rd rs1 imm) s = .fault (.loadAccess a 1) ∧ exec (.lbu rd rs1 imm) s = .fault (.loadAccess a 1))

/-- SW, SH, SB at an aligned address in valid memory complete: the low 4, 2 or 1 bytes of `rs2` stand little-endian at the
address, those bytes count as stored to, and nothing else changes but the pc (43_memory_instrs.md; 20_memory.md section 3). -/
def Obligations.StoresComplete : Prop :=
  ∀ (s : State) (rs2 rs1 : RegSpec) (imm : BitVec 12),
    let a := storeAddress s rs1 imm
    (a.toNat % 4 = 0 → (∀ k, k < 4 → memValid s (a + BitVec.ofNat 32 k) = true) →
      ∃ t, exec (.sw rs2 rs1 imm) s = .next t ∧ StoresOnly s t a .word (readReg s rs2)) ∧
    (a.toNat % 2 = 0 → (∀ k, k < 2 → memValid s (a + BitVec.ofNat 32 k) = true) →
      ∃ t, exec (.sh rs2 rs1 imm) s = .next t ∧ StoresOnly s t a .half (readReg s rs2)) ∧
    (memValid s a = true → ∃ t, exec (.sb rs2 rs1 imm) s = .next t ∧ StoresOnly s t a .byte (readReg s rs2))

/-- Where a store stops: a misaligned address first, then a byte outside valid memory (20_memory.md sections 3 and 4,
decisions D3 and D4). -/
def Obligations.StoresFault : Prop :=
  ∀ (s : State) (rs2 rs1 : RegSpec) (imm : BitVec 12),
    let a := storeAddress s rs1 imm
    (a.toNat % 4 ≠ 0 → exec (.sw rs2 rs1 imm) s = .fault (.misalignedStore a 4)) ∧
    (a.toNat % 4 = 0 → (∃ k, k < 4 ∧ memValid s (a + BitVec.ofNat 32 k) = false) →
      exec (.sw rs2 rs1 imm) s = .fault (.storeAccess a 4)) ∧
    (a.toNat % 2 ≠ 0 → exec (.sh rs2 rs1 imm) s = .fault (.misalignedStore a 2)) ∧
    (a.toNat % 2 = 0 → (∃ k, k < 2 ∧ memValid s (a + BitVec.ofNat 32 k) = false) →
      exec (.sh rs2 rs1 imm) s = .fault (.storeAccess a 2)) ∧
    (memValid s a = false → exec (.sb rs2 rs1 imm) s = .fault (.storeAccess a 1))

/-- After a word store, loads of every width see its bytes: the word, its halves, its bytes, the least significant lowest
(20_memory.md section 2). -/
def Obligations.LoadsSeeTheStoredWord : Prop :=
  ∀ (s t : State) (rs2 rs1 : RegSpec) (imm : BitVec 12), exec (.sw rs2 rs1 imm) s = .next t →
    let a := storeAddress s rs1 imm
    let v := readReg s rs2
    memRead t a .word = .ok v ∧
      memRead t a .half = .ok (v.extractLsb' 0 16) ∧ memRead t (a + 2#32) .half = .ok (v.extractLsb' 16 16) ∧
      ∀ k, k < 4 → memRead t (a + BitVec.ofNat 32 k) .byte = .ok (v.extractLsb' (8 * k) 8)

/-! ### Jumps and branches -/

/-- JAL and JALR to a multiple of 4 complete: `rd` holds pc + 4, the pc the target computed from the state before, JALR's
with bit 0 cleared, also when `rd` is `rs1` (44_jumps.md; D18). -/
def Obligations.JumpsComplete : Prop :=
  ∀ (s : State) (rd rs1 : RegSpec) (imm12 : BitVec 12) (imm21 : BitVec 21),
    ((s.pc + imm21.signExtend 32).toNat % 4 = 0 →
      ∃ t, exec (.jal rd imm21) s = .next t ∧ WritesOnly s t rd (s.pc + 4#32) (s.pc + imm21.signExtend 32)) ∧
    ((readReg s rs1 + imm12.signExtend 32).getLsbD 1 = false →
      ∃ t target, exec (.jalr rd rs1 imm12) s = .next t ∧ WritesOnly s t rd (s.pc + 4#32) target ∧
        target.getLsbD 0 = false ∧ ∀ k, 0 < k → target.getLsbD k = (readReg s rs1 + imm12.signExtend 32).getLsbD k)

/-- JAL and JALR to a target that is no multiple of 4 stop, with nothing written (44_jumps.md, decision D5). -/
def Obligations.JumpsFault : Prop :=
  ∀ (s : State) (rd rs1 : RegSpec) (imm12 : BitVec 12) (imm21 : BitVec 21),
    ((s.pc + imm21.signExtend 32).toNat % 4 ≠ 0 →
      exec (.jal rd imm21) s = .fault (.misalignedFetch (s.pc + imm21.signExtend 32))) ∧
    ((readReg s rs1 + imm12.signExtend 32).getLsbD 1 = true →
      exec (.jalr rd rs1 imm12) s =
        .fault (.misalignedFetch ((readReg s rs1 + imm12.signExtend 32) &&& 0xFFFFFFFE#32)))

/-- The six branches: taken to a multiple of 4 they set the pc to pc + offset, not taken to pc + 4 whatever the offset is;
no register is written (45_branches.md). -/
def Obligations.BranchesComplete : Prop :=
  ∀ (s : State) (rs1 rs2 : RegSpec) (imm : BitVec 13),
    let a := readReg s rs1
    let b := readReg s rs2
    let target := s.pc + imm.signExtend 32
    let goes : Instr → Prop → Prop := fun i taken =>
      (taken → target.toNat % 4 = 0 → ∃ t, exec i s = .next t ∧ WritesOnly s t 0#5 0#32 target) ∧
      (¬taken → ∃ t, exec i s = .next t ∧ WritesOnly s t 0#5 0#32 (s.pc + 4#32))
    goes (.beq rs1 rs2 imm) (a = b) ∧ goes (.bne rs1 rs2 imm) (a ≠ b) ∧
      goes (.blt rs1 rs2 imm) (a.toInt < b.toInt) ∧ goes (.bge rs1 rs2 imm) (b.toInt ≤ a.toInt) ∧
      goes (.bltu rs1 rs2 imm) (a.toNat < b.toNat) ∧ goes (.bgeu rs1 rs2 imm) (b.toNat ≤ a.toNat)

/-- A taken branch to a target that is no multiple of 4 stops, with nothing written (45_branches.md, decision D5). -/
def Obligations.BranchesFault : Prop :=
  ∀ (s : State) (rs1 rs2 : RegSpec) (imm : BitVec 13),
    let a := readReg s rs1
    let b := readReg s rs2
    let target := s.pc + imm.signExtend 32
    target.toNat % 4 ≠ 0 →
    (a = b → exec (.beq rs1 rs2 imm) s = .fault (.misalignedFetch target)) ∧
      (a ≠ b → exec (.bne rs1 rs2 imm) s = .fault (.misalignedFetch target)) ∧
      (a.toInt < b.toInt → exec (.blt rs1 rs2 imm) s = .fault (.misalignedFetch target)) ∧
      (b.toInt ≤ a.toInt → exec (.bge rs1 rs2 imm) s = .fault (.misalignedFetch target)) ∧
      (a.toNat < b.toNat → exec (.bltu rs1 rs2 imm) s = .fault (.misalignedFetch target)) ∧
      (b.toNat ≤ a.toNat → exec (.bgeu rs1 rs2 imm) s = .fault (.misalignedFetch target))

/-! ### CSRW -/

/-- CSRW to `status` and to `stats_en` complete: the CSR takes all 32 bits of `rs1`, a write to `status` ends the run with
them, and nothing else changes but the pc (40_csr.md; D9, D10). -/
def Obligations.CsrwCompletes : Prop :=
  ∀ (s : State) (rs1 : RegSpec),
    (∃ t, exec (.csrw 0x015#12 rs1 0#5) s = .next t ∧ t.status = readReg s rs1 ∧ t.run = .ended (readReg s rs1) ∧
      t.statsEn = s.statsEn ∧ SameRegs s t ∧ SameMemory s t ∧ t.pc = s.pc + 4#32 ∧ t.memMap = s.memMap ∧
      t.mode = s.mode) ∧
    (∃ t, exec (.csrw 0x00A#12 rs1 0#5) s = .next t ∧ t.statsEn = readReg s rs1 ∧ t.status = s.status ∧
      SameRegs s t ∧ SameMemory s t ∧ t.pc = s.pc + 4#32 ∧ SameMachine s t)

/-- CSRW stops when its field `rd` is not zero, whatever the number is, and else for every number but the two
(40_csr.md, decisions D7, D8, D19). -/
def Obligations.CsrwFaults : Prop :=
  ∀ (s : State) (csr : CsrNum) (rs1 rd : RegSpec),
    (rd ≠ 0#5 → exec (.csrw csr rs1 rd) s = .fault (.unsupportedCsrForm rd)) ∧
    (rd = 0#5 → csr ≠ 0x015#12 → csr ≠ 0x00A#12 → exec (.csrw csr rs1 rd) s = .fault (.unsupportedCsr csr))

/-! ### Pseudo-instructions -/

/-- `nop` is the word 0x00000013 and changes nothing but the pc; `mv rd, rs1` copies a register (R202, R203). -/
def Obligations.NopAndMv : Prop :=
  decodeTableWord 32 0x00000013 = some (.addi 0#5 0#5 0#12) ∧
  decodeTableWord 32 0x00030293 = some (.addi 5#5 6#5 0#12) ∧
  (∀ s : State, exec (.addi 0#5 0#5 0#12) s = .next { s with pc := s.pc + 4#32 }) ∧
  ∀ (s : State) (rd rs1 : RegSpec),
    ∃ t, exec (.addi rd rs1 0#12) s = .next t ∧ WritesOnly s t rd (readReg s rs1) (s.pc + 4#32)

/-- `not` complements, `neg` negates, and the branches against zero compare with zero
(46_pseudo_instructions.md; the expansions are the spec's from general knowledge). -/
def Obligations.NotNegAndZeroBranches : Prop :=
  ∀ (s : State) (rd rs1 : RegSpec) (imm : BitVec 13),
    let a := (readReg s rs1).toInt
    let target := s.pc + imm.signExtend 32
    (∃ t, exec (.xori rd rs1 (-1)) s = .next t ∧ WritesOnly s t rd (~~~(readReg s rs1)) (s.pc + 4#32)) ∧
    (∃ t, exec (.sub rd 0#5 rs1) s = .next t ∧ WritesOnly s t rd (BitVec.ofInt 32 (-a)) (s.pc + 4#32)) ∧
    (target.toNat % 4 = 0 →
      let goes : Instr → Prop → Prop := fun i taken =>
        ∃ t, exec i s = .next t ∧ (taken → WritesOnly s t 0#5 0#32 target) ∧
          (¬taken → WritesOnly s t 0#5 0#32 (s.pc + 4#32))
      goes (.beq rs1 0#5 imm) (a = 0) ∧ goes (.bne rs1 0#5 imm) (a ≠ 0) ∧ goes (.bge 0#5 rs1 imm) (a ≤ 0) ∧
        goes (.bge rs1 0#5 imm) (0 ≤ a) ∧ goes (.blt rs1 0#5 imm) (a < 0) ∧ goes (.blt 0#5 rs1 imm) (0 < a))

/-- `li`: LUI with the upper part corrected by bit 11, then ADDI, builds every 32-bit constant (46_pseudo_instructions.md). -/
def Obligations.LiBuildsEveryConstant : Prop :=
  ∀ (s : State) (rd : RegSpec) (c : Word),
    let hi : BitVec 20 := c.extractLsb' 12 20 + (c.extractLsb' 11 1).setWidth 20
    let lo : BitVec 12 := c.extractLsb' 0 12
    ∃ t u, exec (.lui rd hi) s = .next t ∧ exec (.addi rd rd lo) t = .next u ∧ WritesOnly s u rd c (s.pc + 8#32)

/-- `la`: AUIPC and ADDI with the corrected parts of the distance build every address (46_pseudo_instructions.md). -/
def Obligations.LaBuildsEveryAddress : Prop :=
  ∀ (s : State) (rd : RegSpec) (label : Word),
    let delta := label - s.pc
    let hi : BitVec 20 := delta.extractLsb' 12 20 + (delta.extractLsb' 11 1).setWidth 20
    let lo : BitVec 12 := delta.extractLsb' 0 12
    ∃ t u, exec (.auipc rd hi) s = .next t ∧ exec (.addi rd rd lo) t = .next u ∧ WritesOnly s u rd label (s.pc + 8#32)
end

