-- ==== Sys2Proof/Laws/Decode.lean ====
section
/-! SUPPORT. The fields of an encoded word are what was encoded, a word is the encoding of its own fields, and a word hits a
row of the opcode map exactly when its fixed fields have the row's values (30_encoding.md rules R61 to R74). -/

namespace Sys2Proof

section
variable (funct7 : BitVec 7) (rs2 rs1 : BitVec 5) (funct3 : BitVec 3) (rd : BitVec 5) (opcode : BitVec 7)
variable (imm12 : BitVec 12) (imm13 : BitVec 13) (imm20 : BitVec 20) (imm21 : BitVec 21)

/-! ### Fields of an encoded word -/

@[simp] theorem fieldOpcode_encodeR : fieldOpcode (encodeR funct7 rs2 rs1 funct3 rd opcode) = opcode := by
  apply BitVec.eq_of_getLsbD_eq; intro i hi
  simp only [fieldOpcode, encodeR, BitVec.getLsbD_extractLsb', BitVec.getLsbD_append, hi, decide_true, Bool.true_and]
  grind
@[simp] theorem fieldRd_encodeR : fieldRd (encodeR funct7 rs2 rs1 funct3 rd opcode) = rd := by
  apply BitVec.eq_of_getLsbD_eq; intro i hi
  simp only [fieldRd, encodeR, BitVec.getLsbD_extractLsb', BitVec.getLsbD_append, hi, decide_true, Bool.true_and]
  grind
@[simp] theorem fieldFunct3_encodeR : fieldFunct3 (encodeR funct7 rs2 rs1 funct3 rd opcode) = funct3 := by
  apply BitVec.eq_of_getLsbD_eq; intro i hi
  simp only [fieldFunct3, encodeR, BitVec.getLsbD_extractLsb', BitVec.getLsbD_append, hi, decide_true, Bool.true_and]
  grind
@[simp] theorem fieldRs1_encodeR : fieldRs1 (encodeR funct7 rs2 rs1 funct3 rd opcode) = rs1 := by
  apply BitVec.eq_of_getLsbD_eq; intro i hi
  simp only [fieldRs1, encodeR, BitVec.getLsbD_extractLsb', BitVec.getLsbD_append, hi, decide_true, Bool.true_and]
  grind
@[simp] theorem fieldRs2_encodeR : fieldRs2 (encodeR funct7 rs2 rs1 funct3 rd opcode) = rs2 := by
  apply BitVec.eq_of_getLsbD_eq; intro i hi
  simp only [fieldRs2, encodeR, BitVec.getLsbD_extractLsb', BitVec.getLsbD_append, hi, decide_true, Bool.true_and]
  grind
@[simp] theorem fieldFunct7_encodeR : fieldFunct7 (encodeR funct7 rs2 rs1 funct3 rd opcode) = funct7 := by
  apply BitVec.eq_of_getLsbD_eq; intro i hi
  simp only [fieldFunct7, encodeR, BitVec.getLsbD_extractLsb', BitVec.getLsbD_append, hi, decide_true, Bool.true_and]
  grind
@[simp] theorem fieldOpcode_encodeI : fieldOpcode (encodeI imm12 rs1 funct3 rd opcode) = opcode := by
  apply BitVec.eq_of_getLsbD_eq; intro i hi
  simp only [fieldOpcode, encodeI, BitVec.getLsbD_extractLsb', BitVec.getLsbD_append, hi, decide_true, Bool.true_and]
  grind
@[simp] theorem fieldRd_encodeI : fieldRd (encodeI imm12 rs1 funct3 rd opcode) = rd := by
  apply BitVec.eq_of_getLsbD_eq; intro i hi
  simp only [fieldRd, encodeI, BitVec.getLsbD_extractLsb', BitVec.getLsbD_append, hi, decide_true, Bool.true_and]
  grind
@[simp] theorem fieldFunct3_encodeI : fieldFunct3 (encodeI imm12 rs1 funct3 rd opcode) = funct3 := by
  apply BitVec.eq_of_getLsbD_eq; intro i hi
  simp only [fieldFunct3, encodeI, BitVec.getLsbD_extractLsb', BitVec.getLsbD_append, hi, decide_true, Bool.true_and]
  grind
@[simp] theorem fieldRs1_encodeI : fieldRs1 (encodeI imm12 rs1 funct3 rd opcode) = rs1 := by
  apply BitVec.eq_of_getLsbD_eq; intro i hi
  simp only [fieldRs1, encodeI, BitVec.getLsbD_extractLsb', BitVec.getLsbD_append, hi, decide_true, Bool.true_and]
  grind
@[simp] theorem fieldImmI_encodeI : fieldImmI (encodeI imm12 rs1 funct3 rd opcode) = imm12 := by
  apply BitVec.eq_of_getLsbD_eq; intro i hi
  simp only [fieldImmI, encodeI, BitVec.getLsbD_extractLsb', BitVec.getLsbD_append, hi, decide_true, Bool.true_and]
  grind
@[simp] theorem fieldOpcode_encodeS : fieldOpcode (encodeS imm12 rs2 rs1 funct3 opcode) = opcode := by
  simp [encodeS]
@[simp] theorem fieldFunct3_encodeS : fieldFunct3 (encodeS imm12 rs2 rs1 funct3 opcode) = funct3 := by
  simp [encodeS]
@[simp] theorem fieldRs1_encodeS : fieldRs1 (encodeS imm12 rs2 rs1 funct3 opcode) = rs1 := by
  simp [encodeS]
@[simp] theorem fieldRs2_encodeS : fieldRs2 (encodeS imm12 rs2 rs1 funct3 opcode) = rs2 := by
  simp [encodeS]
@[simp] theorem fieldOpcode_encodeB : fieldOpcode (encodeB imm13 rs2 rs1 funct3 opcode) = opcode := by
  simp [encodeB]
@[simp] theorem fieldFunct3_encodeB : fieldFunct3 (encodeB imm13 rs2 rs1 funct3 opcode) = funct3 := by
  simp [encodeB]
@[simp] theorem fieldRs1_encodeB : fieldRs1 (encodeB imm13 rs2 rs1 funct3 opcode) = rs1 := by
  simp [encodeB]
@[simp] theorem fieldRs2_encodeB : fieldRs2 (encodeB imm13 rs2 rs1 funct3 opcode) = rs2 := by
  simp [encodeB]
@[simp] theorem fieldImmS_encodeS : fieldImmS (encodeS imm12 rs2 rs1 funct3 opcode) = imm12 := by
  apply BitVec.eq_of_getLsbD_eq; intro i hi
  simp only [fieldImmS, encodeS, encodeR, BitVec.getLsbD_extractLsb', BitVec.getLsbD_append]
  grind
/-- The B-immediate survives the encoding when it is even (R68). -/
theorem fieldImmB_encodeB (h : immEven imm13 = true) : fieldImmB (encodeB imm13 rs2 rs1 funct3 opcode) = imm13 := by
  simp only [immEven, Bool.not_eq_true'] at h
  apply BitVec.eq_of_getLsbD_eq; intro i hi
  simp only [fieldImmB, encodeB, encodeR, BitVec.getLsbD_extractLsb', BitVec.getLsbD_append]
  grind
@[simp] theorem fieldOpcode_encodeU : fieldOpcode (encodeU imm20 rd opcode) = opcode := by
  apply BitVec.eq_of_getLsbD_eq; intro i hi
  simp only [fieldOpcode, encodeU, BitVec.getLsbD_extractLsb', BitVec.getLsbD_append, hi, decide_true, Bool.true_and]
  grind
@[simp] theorem fieldRd_encodeU : fieldRd (encodeU imm20 rd opcode) = rd := by
  apply BitVec.eq_of_getLsbD_eq; intro i hi
  simp only [fieldRd, encodeU, BitVec.getLsbD_extractLsb', BitVec.getLsbD_append, hi, decide_true, Bool.true_and]
  grind
@[simp] theorem fieldImmU_encodeU : fieldImmU (encodeU imm20 rd opcode) = imm20 := by
  apply BitVec.eq_of_getLsbD_eq; intro i hi
  simp only [fieldImmU, encodeU, BitVec.getLsbD_extractLsb', BitVec.getLsbD_append, hi, decide_true, Bool.true_and]
  grind
@[simp] theorem fieldOpcode_encodeJ : fieldOpcode (encodeJ imm21 rd opcode) = opcode := by
  simp [encodeJ]
@[simp] theorem fieldRd_encodeJ : fieldRd (encodeJ imm21 rd opcode) = rd := by
  simp [encodeJ]
/-- The J-immediate survives the encoding when it is even (R70). -/
theorem fieldImmJ_encodeJ (h : immEven imm21 = true) : fieldImmJ (encodeJ imm21 rd opcode) = imm21 := by
  simp only [immEven, Bool.not_eq_true'] at h
  apply BitVec.eq_of_getLsbD_eq; intro i hi
  simp only [fieldImmJ, encodeJ, encodeU, BitVec.getLsbD_extractLsb', BitVec.getLsbD_append]
  grind

/-! ### A word is the encoding of its fields -/

theorem encodeR_fields (w : Word) : encodeR (fieldFunct7 w) (fieldRs2 w) (fieldRs1 w) (fieldFunct3 w) (fieldRd w) (fieldOpcode w) = w := by
  apply BitVec.eq_of_getLsbD_eq; intro i hi
  simp only [fieldFunct7, fieldRs2, fieldRs1, fieldFunct3, fieldRd, fieldOpcode, encodeR, BitVec.getLsbD_extractLsb', BitVec.getLsbD_append]
  grind
theorem encodeI_fields (w : Word) : encodeI (fieldImmI w) (fieldRs1 w) (fieldFunct3 w) (fieldRd w) (fieldOpcode w) = w := by
  apply BitVec.eq_of_getLsbD_eq; intro i hi
  simp only [fieldImmI, fieldRs1, fieldFunct3, fieldRd, fieldOpcode, encodeI, BitVec.getLsbD_extractLsb', BitVec.getLsbD_append]
  grind
theorem encodeS_fields (w : Word) : encodeS (fieldImmS w) (fieldRs2 w) (fieldRs1 w) (fieldFunct3 w) (fieldOpcode w) = w := by
  apply BitVec.eq_of_getLsbD_eq; intro i hi
  simp only [fieldImmS, fieldRs2, fieldRs1, fieldFunct3, fieldOpcode, encodeS, encodeR, BitVec.getLsbD_extractLsb', BitVec.getLsbD_append]
  grind
theorem encodeB_fields (w : Word) : encodeB (fieldImmB w) (fieldRs2 w) (fieldRs1 w) (fieldFunct3 w) (fieldOpcode w) = w := by
  apply BitVec.eq_of_getLsbD_eq; intro i hi
  simp only [fieldImmB, fieldRs2, fieldRs1, fieldFunct3, fieldOpcode, encodeB, encodeR, BitVec.getLsbD_extractLsb', BitVec.getLsbD_append]
  grind
theorem encodeU_fields (w : Word) : encodeU (fieldImmU w) (fieldRd w) (fieldOpcode w) = w := by
  apply BitVec.eq_of_getLsbD_eq; intro i hi
  simp only [fieldImmU, fieldRd, fieldOpcode, encodeU, BitVec.getLsbD_extractLsb', BitVec.getLsbD_append]
  grind
theorem encodeJ_fields (w : Word) : encodeJ (fieldImmJ w) (fieldRd w) (fieldOpcode w) = w := by
  apply BitVec.eq_of_getLsbD_eq; intro i hi
  simp only [fieldImmJ, fieldRd, fieldOpcode, encodeJ, encodeU, BitVec.getLsbD_extractLsb', BitVec.getLsbD_append]
  grind

/-- A decoded B-immediate is even (R68). -/
@[simp] theorem immEven_fieldImmB (w : Word) : immEven (fieldImmB w) = true := by
  simp only [immEven, fieldImmB, BitVec.getLsbD_append]; rfl

/-- A decoded J-immediate is even (R70). -/
@[simp] theorem immEven_fieldImmJ (w : Word) : immEven (fieldImmJ w) = true := by
  simp only [immEven, fieldImmJ, BitVec.getLsbD_append]; rfl

/-! ### Masks -/

/-- The mask of the R rows keeps funct7, funct3 and the opcode (R75, R76). -/
theorem encodeR_mask : encodeR funct7 rs2 rs1 funct3 rd opcode &&& 0xFE00707F#32 = encodeR funct7 0#5 0#5 funct3 0#5 opcode := by
  have hm : 0xFE00707F#32 = encodeR (BitVec.allOnes 7) 0#5 0#5 (BitVec.allOnes 3) 0#5 (BitVec.allOnes 7) := by decide
  rw [hm]
  apply BitVec.eq_of_getLsbD_eq; intro i hi
  simp only [encodeR, BitVec.getLsbD_and, BitVec.getLsbD_append, BitVec.getLsbD_allOnes]
  grind

/-- The mask of the I, S and B rows keeps funct3 and the opcode (R76 to R79, R81, R83). -/
theorem encodeR_mask_funct3 : encodeR funct7 rs2 rs1 funct3 rd opcode &&& 0x0000707F#32 = encodeR 0#7 0#5 0#5 funct3 0#5 opcode := by
  have hm : 0x0000707F#32 = encodeR 0#7 0#5 0#5 (BitVec.allOnes 3) 0#5 (BitVec.allOnes 7) := by decide
  rw [hm]
  apply BitVec.eq_of_getLsbD_eq; intro i hi
  simp only [encodeR, BitVec.getLsbD_and, BitVec.getLsbD_append, BitVec.getLsbD_allOnes]
  grind

/-- The mask of the U rows keeps the opcode (R80, R82). -/
theorem encodeR_mask_opcode : encodeR funct7 rs2 rs1 funct3 rd opcode &&& 0x0000007F#32 = encodeR 0#7 0#5 0#5 0#3 0#5 opcode := by
  have hm : 0x0000007F#32 = encodeR 0#7 0#5 0#5 0#3 0#5 (BitVec.allOnes 7) := by decide
  rw [hm]
  apply BitVec.eq_of_getLsbD_eq; intro i hi
  simp only [encodeR, BitVec.getLsbD_and, BitVec.getLsbD_append, BitVec.getLsbD_allOnes]
  grind

end

/-- A word under the R mask equals a pattern exactly when funct7, funct3 and the opcode are the pattern's (R75, R76). -/
theorem mask_R_iff (w : Word) (f7 : BitVec 7) (f3 : BitVec 3) (op : BitVec 7) :
    w &&& 0xFE00707F#32 = encodeR f7 0#5 0#5 f3 0#5 op ↔ fieldFunct7 w = f7 ∧ fieldFunct3 w = f3 ∧ fieldOpcode w = op := by
  rw [← encodeR_fields w, encodeR_mask]
  constructor
  · intro h
    have h7 := congrArg fieldFunct7 h
    have h3 := congrArg fieldFunct3 h
    have ho := congrArg fieldOpcode h
    simp only [fieldFunct7_encodeR, fieldFunct3_encodeR, fieldOpcode_encodeR] at h7 h3 ho
    simp only [fieldFunct7_encodeR, fieldFunct3_encodeR, fieldOpcode_encodeR]
    exact ⟨h7, h3, ho⟩
  · simp only [fieldFunct7_encodeR, fieldFunct3_encodeR, fieldOpcode_encodeR]
    rintro ⟨h7, h3, ho⟩
    rw [h7, h3, ho]

/-- A word under the I mask equals a pattern exactly when funct3 and the opcode are the pattern's (R76 to R79, R81, R83). -/
theorem mask_I_iff (w : Word) (f3 : BitVec 3) (op : BitVec 7) :
    w &&& 0x0000707F#32 = encodeR 0#7 0#5 0#5 f3 0#5 op ↔ fieldFunct3 w = f3 ∧ fieldOpcode w = op := by
  rw [← encodeR_fields w, encodeR_mask_funct3]
  constructor
  · intro h
    have h3 := congrArg fieldFunct3 h
    have ho := congrArg fieldOpcode h
    simp only [fieldFunct3_encodeR, fieldOpcode_encodeR] at h3 ho
    simp only [fieldFunct3_encodeR, fieldOpcode_encodeR]
    exact ⟨h3, ho⟩
  · simp only [fieldFunct3_encodeR, fieldOpcode_encodeR]
    rintro ⟨h3, ho⟩
    rw [h3, ho]

/-- A word under the U mask equals a pattern exactly when the opcode is the pattern's (R80, R82). -/
theorem mask_U_iff (w : Word) (op : BitVec 7) :
    w &&& 0x0000007F#32 = encodeR 0#7 0#5 0#5 0#3 0#5 op ↔ fieldOpcode w = op := by
  rw [← encodeR_fields w, encodeR_mask_opcode]
  constructor
  · intro h
    have ho := congrArg fieldOpcode h
    simp only [fieldOpcode_encodeR] at ho
    simpa only [fieldOpcode_encodeR] using ho
  · simp only [fieldOpcode_encodeR]
    intro ho
    rw [ho]

/-! ### Bytes of a word -/

/-- The bytes of a word, put together again (R31, R46). -/
theorem append_wordBytes (w : Word) :
    w.extractLsb' 24 8 ++ w.extractLsb' 16 8 ++ w.extractLsb' 8 8 ++ w.extractLsb' 0 8 = w := by
  apply BitVec.eq_of_getLsbD_eq; intro i hi
  simp only [BitVec.getLsbD_extractLsb', BitVec.getLsbD_append]
  grind

/-- Decoding the bytes of a word is decoding the word. -/
theorem decode_wordBytes (w : Word) : decode (wordBytes w) = (decodeWord w).map fun i => (i, []) := by
  have h := append_wordBytes w
  simp only [decode, wordBytes]
  rw [h]

/-- What decodeTableWord answers, from the word. -/
theorem decodeTableWord_eq_some {n w : Nat} {i : Instr} :
    decodeTableWord n w = some i ↔ decodeWord (tableWord n w) = .ok i := by
  unfold decodeTableWord
  rw [decode_wordBytes]
  cases decodeWord (tableWord n w) <;> simp [Except.map]

end Sys2Proof
end

