-- ==== Sys2Proof/Laws/State.lean ====
section
/-! SUPPORT. The small lemmas of the state: one per field per update, and what reading a register gives after a write
(10_state.md rule R11). -/

namespace Sys2Proof.Machine

/-! ### setPc -/

@[simp] theorem setPc_x (s : State) (p : Word) : (setPc s p).x = s.x := rfl
@[simp] theorem setPc_pc (s : State) (p : Word) : (setPc s p).pc = p := rfl
@[simp] theorem setPc_status (s : State) (p : Word) : (setPc s p).status = s.status := rfl
@[simp] theorem setPc_statsEn (s : State) (p : Word) : (setPc s p).statsEn = s.statsEn := rfl
@[simp] theorem setPc_mem (s : State) (p : Word) : (setPc s p).mem = s.mem := rfl
@[simp] theorem setPc_stored (s : State) (p : Word) : (setPc s p).stored = s.stored := rfl
@[simp] theorem setPc_memMap (s : State) (p : Word) : (setPc s p).memMap = s.memMap := rfl
@[simp] theorem setPc_mode (s : State) (p : Word) : (setPc s p).mode = s.mode := rfl
@[simp] theorem setPc_run (s : State) (p : Word) : (setPc s p).run = s.run := rfl

/-! ### writeStatus -/

@[simp] theorem writeStatus_x (s : State) (v : Word) : (writeStatus s v).x = s.x := rfl
@[simp] theorem writeStatus_pc (s : State) (v : Word) : (writeStatus s v).pc = s.pc := rfl
@[simp] theorem writeStatus_status (s : State) (v : Word) : (writeStatus s v).status = v := rfl
@[simp] theorem writeStatus_statsEn (s : State) (v : Word) : (writeStatus s v).statsEn = s.statsEn := rfl
@[simp] theorem writeStatus_mem (s : State) (v : Word) : (writeStatus s v).mem = s.mem := rfl
@[simp] theorem writeStatus_stored (s : State) (v : Word) : (writeStatus s v).stored = s.stored := rfl
@[simp] theorem writeStatus_memMap (s : State) (v : Word) : (writeStatus s v).memMap = s.memMap := rfl
@[simp] theorem writeStatus_mode (s : State) (v : Word) : (writeStatus s v).mode = s.mode := rfl
@[simp] theorem writeStatus_run (s : State) (v : Word) : (writeStatus s v).run = .ended v := rfl

/-! ### writeStatsEn -/

@[simp] theorem writeStatsEn_x (s : State) (v : Word) : (writeStatsEn s v).x = s.x := rfl
@[simp] theorem writeStatsEn_pc (s : State) (v : Word) : (writeStatsEn s v).pc = s.pc := rfl
@[simp] theorem writeStatsEn_status (s : State) (v : Word) : (writeStatsEn s v).status = s.status := rfl
@[simp] theorem writeStatsEn_statsEn (s : State) (v : Word) : (writeStatsEn s v).statsEn = v := rfl
@[simp] theorem writeStatsEn_mem (s : State) (v : Word) : (writeStatsEn s v).mem = s.mem := rfl
@[simp] theorem writeStatsEn_stored (s : State) (v : Word) : (writeStatsEn s v).stored = s.stored := rfl
@[simp] theorem writeStatsEn_memMap (s : State) (v : Word) : (writeStatsEn s v).memMap = s.memMap := rfl
@[simp] theorem writeStatsEn_mode (s : State) (v : Word) : (writeStatsEn s v).mode = s.mode := rfl
@[simp] theorem writeStatsEn_run (s : State) (v : Word) : (writeStatsEn s v).run = s.run := rfl

/-! ### storeBytes -/

@[simp] theorem storeBytes_x (s : State) (a : Word) (w : Width) (v : BitVec w.bits) : (storeBytes s a w v).x = s.x := rfl
@[simp] theorem storeBytes_pc (s : State) (a : Word) (w : Width) (v : BitVec w.bits) : (storeBytes s a w v).pc = s.pc := rfl
@[simp] theorem storeBytes_status (s : State) (a : Word) (w : Width) (v : BitVec w.bits) : (storeBytes s a w v).status = s.status := rfl
@[simp] theorem storeBytes_statsEn (s : State) (a : Word) (w : Width) (v : BitVec w.bits) : (storeBytes s a w v).statsEn = s.statsEn := rfl
@[simp] theorem storeBytes_mem (s : State) (a : Word) (w : Width) (v : BitVec w.bits) : (storeBytes s a w v).mem = writeLE s.mem a w v := rfl
@[simp] theorem storeBytes_stored (s : State) (a : Word) (w : Width) (v : BitVec w.bits) : (storeBytes s a w v).stored = markStored s.stored (accessBytes a w) := rfl
@[simp] theorem storeBytes_memMap (s : State) (a : Word) (w : Width) (v : BitVec w.bits) : (storeBytes s a w v).memMap = s.memMap := rfl
@[simp] theorem storeBytes_mode (s : State) (a : Word) (w : Width) (v : BitVec w.bits) : (storeBytes s a w v).mode = s.mode := rfl
@[simp] theorem storeBytes_run (s : State) (a : Word) (w : Width) (v : BitVec w.bits) : (storeBytes s a w v).run = s.run := rfl

/-! ### withCsrs -/

@[simp] theorem withCsrs_x (u v : Word) (s : State) : (withCsrs u v s).x = s.x := rfl
@[simp] theorem withCsrs_pc (u v : Word) (s : State) : (withCsrs u v s).pc = s.pc := rfl
@[simp] theorem withCsrs_status (u v : Word) (s : State) : (withCsrs u v s).status = u := rfl
@[simp] theorem withCsrs_statsEn (u v : Word) (s : State) : (withCsrs u v s).statsEn = v := rfl
@[simp] theorem withCsrs_mem (u v : Word) (s : State) : (withCsrs u v s).mem = s.mem := rfl
@[simp] theorem withCsrs_stored (u v : Word) (s : State) : (withCsrs u v s).stored = s.stored := rfl
@[simp] theorem withCsrs_memMap (u v : Word) (s : State) : (withCsrs u v s).memMap = s.memMap := rfl
@[simp] theorem withCsrs_mode (u v : Word) (s : State) : (withCsrs u v s).mode = s.mode := rfl
@[simp] theorem withCsrs_run (u v : Word) (s : State) : (withCsrs u v s).run = s.run := rfl

/-! ### writeReg -/

@[simp] theorem writeReg_pc (s : State) (r : RegSpec) (v : Word) : (writeReg s r v).pc = s.pc := by
  unfold writeReg; split <;> rfl
@[simp] theorem writeReg_status (s : State) (r : RegSpec) (v : Word) : (writeReg s r v).status = s.status := by
  unfold writeReg; split <;> rfl
@[simp] theorem writeReg_statsEn (s : State) (r : RegSpec) (v : Word) : (writeReg s r v).statsEn = s.statsEn := by
  unfold writeReg; split <;> rfl
@[simp] theorem writeReg_mem (s : State) (r : RegSpec) (v : Word) : (writeReg s r v).mem = s.mem := by
  unfold writeReg; split <;> rfl
@[simp] theorem writeReg_stored (s : State) (r : RegSpec) (v : Word) : (writeReg s r v).stored = s.stored := by
  unfold writeReg; split <;> rfl
@[simp] theorem writeReg_memMap (s : State) (r : RegSpec) (v : Word) : (writeReg s r v).memMap = s.memMap := by
  unfold writeReg; split <;> rfl
@[simp] theorem writeReg_mode (s : State) (r : RegSpec) (v : Word) : (writeReg s r v).mode = s.mode := by
  unfold writeReg; split <;> rfl
@[simp] theorem writeReg_run (s : State) (r : RegSpec) (v : Word) : (writeReg s r v).run = s.run := by
  unfold writeReg; split <;> rfl

/-- A write to x0 changes nothing (R11). -/
@[simp] theorem writeReg_x0 (s : State) (v : Word) : writeReg s 0#5 v = s := rfl

/-! ### readReg -/

/-- x0 reads as zero in every state (R11). -/
@[simp] theorem readReg_x0 (s : State) : readReg s 0#5 = 0#32 := rfl

/-- Two states with the same register file read the same. -/
theorem readReg_congr {s t : State} (h : t.x = s.x) (r : RegSpec) : readReg t r = readReg s r := by
  unfold readReg; simp only [h]

@[simp] theorem readReg_setPc (s : State) (p : Word) (r : RegSpec) : readReg (setPc s p) r = readReg s r := rfl
@[simp] theorem readReg_writeStatus (s : State) (v : Word) (r : RegSpec) : readReg (writeStatus s v) r = readReg s r := rfl
@[simp] theorem readReg_writeStatsEn (s : State) (v : Word) (r : RegSpec) : readReg (writeStatsEn s v) r = readReg s r := rfl
@[simp] theorem readReg_storeBytes (s : State) (a : Word) (w : Width) (v : BitVec w.bits) (r : RegSpec) :
    readReg (storeBytes s a w v) r = readReg s r := rfl
@[simp] theorem readReg_withCsrs (u v : Word) (s : State) (r : RegSpec) : readReg (withCsrs u v s) r = readReg s r := rfl

/-- The register written reads as the value; x0 as zero (R11). -/
theorem readReg_writeReg_same (s : State) (r : RegSpec) (v : Word) :
    readReg (writeReg s r v) r = if r = 0#5 then 0#32 else v := by
  unfold readReg writeReg
  by_cases h : r = 0#5 <;> simp [h]

/-- Every other register reads as before (R10). -/
theorem readReg_writeReg_other (s : State) {r q : RegSpec} (v : Word) (h : q ≠ r) :
    readReg (writeReg s r v) q = readReg s q := by
  unfold readReg writeReg
  by_cases hr : r = 0#5
  · simp [hr]
  by_cases hq : q = 0#5
  · simp [hq]
  have hn : r.toNat - 1 ≠ q.toNat - 1 := by
    have h1 : r.toNat ≠ q.toNat := fun e => h (BitVec.eq_of_toNat_eq e.symm)
    have h2 : r.toNat ≠ 0 := fun e => hr (BitVec.eq_of_toNat_eq e)
    have h3 : q.toNat ≠ 0 := fun e => hq (BitVec.eq_of_toNat_eq e)
    omega
  simp only [hr, hq, if_false]
  exact Vector.getElem_set_ne _ _ hn

end Sys2Proof.Machine
end

