-- ==== Sys2Proof/Laws/Memory.lean ====
section
/-! SUPPORT. Memory and the stored addresses: a read after a write, and that every operation keeps the canonical forms
(20_memory.md rules R31 to R35, R47). -/

namespace Sys2Proof.Machine

/-! ### Cells -/

theorem lookupCell_eraseCell_same (m : Memory) (a : Nat) : lookupCell (eraseCell m a) a = unlistedByte := by
  induction m with
  | nil => rfl
  | cons c m ih =>
    obtain ⟨k, b⟩ := c
    by_cases h : k = a <;> simp [eraseCell, lookupCell, h, ih]

theorem lookupCell_eraseCell_other (m : Memory) {a a' : Nat} (h : a' ≠ a) :
    lookupCell (eraseCell m a) a' = lookupCell m a' := by
  induction m with
  | nil => rfl
  | cons c m ih =>
    obtain ⟨k, b⟩ := c
    by_cases h1 : k = a
    · subst h1; simp [eraseCell, lookupCell, ih, Ne.symm h]
    · simp [eraseCell, lookupCell, h1, ih]

theorem eraseCell_key_ne (m : Memory) (a : Nat) : ∀ c ∈ eraseCell m a, c.1 ≠ a := by
  induction m with
  | nil => simp [eraseCell]
  | cons c m ih =>
    obtain ⟨k, b⟩ := c
    by_cases h : k = a
    · simpa [eraseCell, h] using ih
    · simpa [eraseCell, h] using ih

theorem lookupCell_insertCell_same (m : Memory) (a : Nat) (b : Byte) (h : ∀ c ∈ m, c.1 ≠ a) :
    lookupCell (insertCell m a b) a = b := by
  induction m with
  | nil => simp [insertCell, lookupCell]
  | cons c m ih =>
    obtain ⟨k, d⟩ := c
    have hk : k ≠ a := h (k, d) (by simp)
    by_cases h1 : a < k
    · simp [insertCell, lookupCell, h1]
    · simp [insertCell, lookupCell, h1, hk, ih fun c hc => h c (by simp [hc])]

theorem lookupCell_insertCell_other (m : Memory) {a a' : Nat} (b : Byte) (h : a' ≠ a) :
    lookupCell (insertCell m a b) a' = lookupCell m a' := by
  induction m with
  | nil => simp [insertCell, lookupCell, Ne.symm h]
  | cons c m ih =>
    obtain ⟨k, d⟩ := c
    by_cases h1 : a < k
    · simp [insertCell, lookupCell, h1, Ne.symm h]
    · simp [insertCell, lookupCell, h1, ih]

theorem cellsFrom_mono {lo lo' : Nat} (h : lo' ≤ lo) {m : Memory} (hm : cellsFrom lo m = true) :
    cellsFrom lo' m = true := by
  cases m with
  | nil => rfl
  | cons c m =>
    obtain ⟨k, b⟩ := c
    simp only [cellsFrom, Bool.and_eq_true, decide_eq_true_eq] at hm ⊢
    exact ⟨⟨⟨h.trans hm.1.1.1, hm.1.1.2⟩, hm.1.2⟩, hm.2⟩

theorem cellsFrom_eraseCell {lo : Nat} {m : Memory} (a : Nat) (hm : cellsFrom lo m = true) :
    cellsFrom lo (eraseCell m a) = true := by
  induction m generalizing lo with
  | nil => rfl
  | cons c m ih =>
    obtain ⟨k, b⟩ := c
    simp only [cellsFrom, Bool.and_eq_true, decide_eq_true_eq] at hm
    by_cases h : k = a
    · simp only [eraseCell, h, if_true]
      exact ih (cellsFrom_mono (by omega) hm.2)
    · simp only [eraseCell, h, if_false, cellsFrom, Bool.and_eq_true, decide_eq_true_eq]
      exact ⟨hm.1, ih hm.2⟩

theorem cellsFrom_insertCell {lo a : Nat} {m : Memory} {b : Byte} (hm : cellsFrom lo m = true)
    (hk : ∀ c ∈ m, c.1 ≠ a) (hlo : lo ≤ a) (ha : a < 2 ^ 32) (hb : b ≠ unlistedByte) :
    cellsFrom lo (insertCell m a b) = true := by
  induction m generalizing lo with
  | nil =>
    simp only [insertCell, cellsFrom, Bool.and_eq_true, decide_eq_true_eq, and_true]
    exact ⟨⟨hlo, ha⟩, hb⟩
  | cons c m ih =>
    obtain ⟨k, d⟩ := c
    have hka : k ≠ a := hk (k, d) (by simp)
    simp only [cellsFrom, Bool.and_eq_true, decide_eq_true_eq] at hm
    by_cases h : a < k
    · simp only [insertCell, h, if_true, cellsFrom, Bool.and_eq_true, decide_eq_true_eq]
      exact ⟨⟨⟨hlo, ha⟩, hb⟩, ⟨⟨by omega, hm.1.1.2⟩, hm.1.2⟩, hm.2⟩
    · simp only [insertCell, h, if_false, cellsFrom, Bool.and_eq_true, decide_eq_true_eq]
      exact ⟨hm.1, ih hm.2 (fun c hc => hk c (by simp [hc])) (by omega)⟩

/-! ### One byte -/

/-- A byte written reads back. -/
@[simp] theorem read_write_same (m : Memory) (a : Word) (b : Byte) : (m.write a b).read a = b := by
  unfold Memory.read Memory.write
  split
  · rename_i h; rw [lookupCell_eraseCell_same, h]
  · exact lookupCell_insertCell_same _ _ _ (eraseCell_key_ne m a.toNat)

/-- A write leaves every other byte alone. -/
theorem read_write_other (m : Memory) {a a' : Word} (b : Byte) (h : a' ≠ a) : (m.write a b).read a' = m.read a' := by
  have hn : a'.toNat ≠ a.toNat := fun e => h (BitVec.eq_of_toNat_eq e)
  unfold Memory.read Memory.write
  split
  · exact lookupCell_eraseCell_other m hn
  · rw [lookupCell_insertCell_other _ _ hn, lookupCell_eraseCell_other m hn]

/-- What any byte reads as after a write. -/
theorem read_write (m : Memory) (a a' : Word) (b : Byte) :
    (m.write a b).read a' = if a' = a then b else m.read a' := by
  by_cases h : a' = a
  · subst h; simp
  · simp [h, read_write_other m b h]

/-- A write keeps the canonical form. -/
theorem wf_write {m : Memory} (hm : m.wf = true) (a : Word) (b : Byte) : (m.write a b).wf = true := by
  unfold Memory.wf Memory.write at *
  split
  · exact cellsFrom_eraseCell _ hm
  · rename_i hb
    exact cellsFrom_insertCell (cellsFrom_eraseCell _ hm) (eraseCell_key_ne m _) (Nat.zero_le _) a.isLt hb

/-! ### An access -/

/-- A little-endian write keeps the canonical form. -/
theorem wf_writeLE {m : Memory} (hm : m.wf = true) (a : Word) (w : Width) (v : BitVec w.bits) :
    (writeLE m a w v).wf = true := by
  cases w <;> simp only [writeLE] <;> repeat' apply wf_write
  all_goals exact hm

/-- A little-endian write leaves every byte outside the access alone (R32, R35). -/
theorem read_writeLE_other (m : Memory) (a : Word) (w : Width) (v : BitVec w.bits) {b : Word}
    (h : b ∉ accessBytes a w) : (writeLE m a w v).read b = m.read b := by
  cases w <;> simp only [accessBytes, List.mem_cons, List.not_mem_nil, or_false, not_or] at h
  · simp only [writeLE]; rw [read_write_other _ _ h]
  · simp only [writeLE]; rw [read_write_other _ _ h.2, read_write_other _ _ h.1]
  · simp only [writeLE]
    rw [read_write_other _ _ h.2.2.2, read_write_other _ _ h.2.2.1, read_write_other _ _ h.2.1, read_write_other _ _ h.1]

/-- Byte k of a little-endian write is bits 8k+7:8k of the value (R35). -/
theorem read_writeLE_same (m : Memory) (a : Word) (w : Width) (v : BitVec w.bits) {k : Nat} (h : k < w.bytes) :
    (writeLE m a w v).read (a + BitVec.ofNat 32 k) = v.extractLsb' (8 * k) 8 := by
  cases w <;> simp only [Width.bytes] at h
  · obtain rfl : k = 0 := by omega
    simp [writeLE]
  · obtain rfl | rfl : k = 0 ∨ k = 1 := by omega
    all_goals simp [writeLE, read_write]
  · obtain rfl | rfl | rfl | rfl : k = 0 ∨ k = 1 ∨ k = 2 ∨ k = 3 := by omega
    all_goals simp [writeLE, read_write]

/-! ### The stored addresses -/

theorem mem_insertAddr (l : List Nat) (a b : Nat) : b ∈ insertAddr l a ↔ b ∈ l ∨ b = a := by
  induction l with
  | nil => simp [insertAddr]
  | cons k l ih =>
    by_cases h1 : a < k
    · simp [insertAddr, h1, or_comm]
    · by_cases h2 : a = k
      · subst h2
        simp only [insertAddr, lt_irrefl, if_false, if_true, List.mem_cons]
        tauto
      · simp [insertAddr, h1, h2, ih, or_assoc]

/-- The bytes of an access are added to the stored ones, and no others (R47). -/
theorem mem_markStored (l : List Nat) (as : List Word) (b : Word) :
    b.toNat ∈ markStored l as ↔ b.toNat ∈ l ∨ b ∈ as := by
  induction as generalizing l with
  | nil => simp [markStored]
  | cons a as ih =>
    rw [markStored, ih, mem_insertAddr, List.mem_cons, BitVec.toNat_inj, or_assoc]

theorem addrsFrom_insertAddr {lo a : Nat} {l : List Nat} (hl : addrsFrom lo l = true) (hlo : lo ≤ a)
    (ha : a < 2 ^ 32) : addrsFrom lo (insertAddr l a) = true := by
  induction l generalizing lo with
  | nil =>
    simp only [insertAddr, addrsFrom, Bool.and_eq_true, decide_eq_true_eq, and_true]
    exact ⟨hlo, ha⟩
  | cons k l ih =>
    have hl' := hl
    simp only [addrsFrom, Bool.and_eq_true, decide_eq_true_eq] at hl
    by_cases h1 : a < k
    · simp only [insertAddr, h1, if_true, addrsFrom, Bool.and_eq_true, decide_eq_true_eq]
      exact ⟨⟨hlo, ha⟩, ⟨by omega, hl.1.2⟩, hl.2⟩
    · by_cases h2 : a = k
      · simpa [insertAddr, h1, h2] using hl'
      · simp only [insertAddr, h1, h2, if_false, addrsFrom, Bool.and_eq_true, decide_eq_true_eq]
        exact ⟨hl.1, ih hl.2 (by omega)⟩

/-- Marking bytes as stored keeps the canonical form. -/
theorem storedWf_markStored {l : List Nat} (hl : storedWf l = true) (as : List Word) :
    storedWf (markStored l as) = true := by
  induction as generalizing l with
  | nil => exact hl
  | cons a as ih => exact ih (addrsFrom_insertAddr hl (Nat.zero_le _) a.isLt)

/-- Memory right after reset is canonical. -/
theorem reset_mem_wf : State.reset.mem.wf = true := rfl

/-! ### Placing a word (log entry 9) -/

theorem addrsFrom_mono {lo lo' : Nat} (h : lo' ≤ lo) {l : List Nat} (hl : addrsFrom lo l = true) :
    addrsFrom lo' l = true := by
  cases l with
  | nil => rfl
  | cons k l =>
    simp only [addrsFrom, Bool.and_eq_true, decide_eq_true_eq] at hl ⊢
    exact ⟨⟨h.trans hl.1.1, hl.1.2⟩, hl.2⟩

theorem storedWf_unmarkStored {l : List Nat} (hl : storedWf l = true) (as : List Word) :
    storedWf (unmarkStored l as) = true := by
  suffices ∀ lo, addrsFrom lo l = true → addrsFrom lo (unmarkStored l as) = true from this 0 hl
  clear hl
  induction l with
  | nil => intro lo _; rfl
  | cons k l ih =>
    intro lo hl
    simp only [addrsFrom, Bool.and_eq_true, decide_eq_true_eq] at hl
    by_cases h : (as.any fun a => a.toNat == k) = true
    · have : unmarkStored (k :: l) as = unmarkStored l as := by simp [unmarkStored, h]
      rw [this]
      exact addrsFrom_mono (by omega) (ih _ hl.2)
    · have : unmarkStored (k :: l) as = k :: unmarkStored l as := by simp [unmarkStored, h]
      rw [this]
      simp only [addrsFrom, Bool.and_eq_true, decide_eq_true_eq]
      exact ⟨hl.1, ih _ hl.2⟩

end Sys2Proof.Machine
end

