-- ==== Sys2Proof/Laws/Ops.lean ====
section
/-! SUPPORT. What each shared operation can do, said once: the answers of MemRead, MemWrite, loads, stores, jumps, branches
and fetch (20_memory.md rules R34, R35, R46; 44_jumps.md rule R180; 45_branches.md rule R190). -/

namespace Sys2Proof.Machine

/-! ### The common parts of a frame -/

theorem SameMachine.refl (s : State) : SameMachine s s := ⟨rfl, rfl, rfl⟩
theorem SameCsrs.refl (s : State) : SameCsrs s s := ⟨rfl, rfl⟩
theorem SameMemory.refl (s : State) : SameMemory s s := ⟨fun _ => rfl, rfl⟩

/-- Writing `rd` and then the pc does just that, for every `rd`, x0 too. -/
theorem writesOnly_writeReg_setPc (s : State) (rd : RegSpec) (v pc : Word) :
    WritesOnly s (setPc (writeReg s rd v) pc) rd v pc := by
  refine ⟨?_, ?_, rfl, ⟨?_, ?_⟩, ⟨?_, ?_⟩, ?_, ?_, ?_⟩
  · simp [readReg_writeReg_same]
  · intro r hr; simp [readReg_writeReg_other s v hr]
  all_goals simp

/-- `writeResult` always completes, writes `rd` and advances the pc (R8). -/
theorem writeResult_next (s : State) (rd : RegSpec) (v : Word) :
    ∃ t, writeResult s rd v = .next t ∧ WritesOnly s t rd v (s.pc + 4#32) :=
  ⟨_, rfl, by simpa using writesOnly_writeReg_setPc s rd v (s.pc + 4#32)⟩

/-- `writeResult` as one equation. -/
theorem writeResult_eq (s : State) (rd : RegSpec) (v : Word) :
    writeResult s rd v = .next (setPc (writeReg s rd v) (s.pc + 4#32)) := by
  simp [writeResult, advance]

/-- An outcome that is a `writeResult` of a value completes and writes that value. -/
theorem exists_writesOnly {o : Host.Outcome State Fault Refusal} {s : State} {rd : RegSpec} {v w : Word}
    (ho : o = writeResult s rd v) (hv : v = w) : ∃ t, o = .next t ∧ WritesOnly s t rd w (s.pc + 4#32) := by
  subst ho hv; exact writeResult_next s rd v

/-- An outcome that is a `writeResult` of a value with a property completes and writes a value with that property. -/
theorem exists_value {o : Host.Outcome State Fault Refusal} {s : State} {rd : RegSpec} {v : Word} {P : Word → Prop}
    (ho : o = writeResult s rd v) (hv : P v) :
    ∃ t v, o = .next t ∧ WritesOnly s t rd v (s.pc + 4#32) ∧ P v := by
  obtain ⟨t, h1, h2⟩ := exists_writesOnly ho rfl
  exact ⟨t, v, h1, h2, hv⟩

/-! ### The bytes of an access -/

/-- The addresses of an access are the first `w.bytes` from its own (R34, R35). -/
theorem mem_accessBytes (a : Word) (w : Width) (b : Word) :
    b ∈ accessBytes a w ↔ ∃ k, k < w.bytes ∧ b = a + BitVec.ofNat 32 k := by
  constructor
  · intro h
    cases w <;> simp only [accessBytes, List.mem_cons, List.not_mem_nil, or_false] at h
    · exact ⟨0, by decide, by simpa using h⟩
    · obtain h | h := h
      · exact ⟨0, by decide, by simpa using h⟩
      · exact ⟨1, by decide, h⟩
    · obtain h | h | h | h := h
      · exact ⟨0, by decide, by simpa using h⟩
      · exact ⟨1, by decide, h⟩
      · exact ⟨2, by decide, h⟩
      · exact ⟨3, by decide, h⟩
  · rintro ⟨k, hk, rfl⟩
    cases w <;> simp only [Width.bytes] at hk
    · obtain rfl : k = 0 := by omega
      simp [accessBytes]
    · obtain rfl | rfl : k = 0 ∨ k = 1 := by omega
      all_goals simp [accessBytes]
    · obtain rfl | rfl | rfl | rfl : k = 0 ∨ k = 1 ∨ k = 2 ∨ k = 3 := by omega
      all_goals simp [accessBytes]

/-- An access is valid exactly when every byte of it is (R34, R35, R46). -/
theorem accessValid_iff (s : State) (a : Word) (w : Width) :
    accessValid s a w = true ↔ ∀ k, k < w.bytes → memValid s (a + BitVec.ofNat 32 k) = true := by
  unfold accessValid
  rw [List.all_eq_true]
  exact ⟨fun h k hk => h _ ((mem_accessBytes a w _).2 ⟨k, hk, rfl⟩),
    fun h b hb => by obtain ⟨k, hk, rfl⟩ := (mem_accessBytes a w b).1 hb; exact h k hk⟩

/-- An access is invalid exactly when some byte of it is (R34, R35, R46). -/
theorem accessValid_eq_false_iff (s : State) (a : Word) (w : Width) :
    accessValid s a w = false ↔ ∃ k, k < w.bytes ∧ memValid s (a + BitVec.ofNat 32 k) = false := by
  rw [← Bool.not_eq_true, accessValid_iff]
  push Not
  simp only [ne_eq, Bool.not_eq_true]

/-- Some byte of an access was stored to (R46). -/
theorem anyStored_iff (s : State) (a : Word) (w : Width) :
    anyStored s a w = true ↔ ∃ k, k < w.bytes ∧ (a + BitVec.ofNat 32 k).toNat ∈ s.stored := by
  unfold anyStored
  simp only [List.any_eq_true, List.contains_eq_mem, decide_eq_true_eq]
  exact ⟨fun ⟨b, hb, h⟩ => by obtain ⟨k, hk, rfl⟩ := (mem_accessBytes a w b).1 hb; exact ⟨k, hk, h⟩,
    fun ⟨k, hk, h⟩ => ⟨_, (mem_accessBytes a w _).2 ⟨k, hk, rfl⟩, h⟩⟩

/-- No byte of an access was stored to (R46). -/
theorem anyStored_eq_false_iff (s : State) (a : Word) (w : Width) :
    anyStored s a w = false ↔ ∀ k, k < w.bytes → (a + BitVec.ofNat 32 k).toNat ∉ s.stored := by
  rw [← Bool.not_eq_true, anyStored_iff]
  push Not
  rfl

/-- A little-endian value reads back (R31, R34, R35). -/
@[simp] theorem readLE_writeLE (m : Memory) (a : Word) (w : Width) (v : BitVec w.bits) :
    readLE (writeLE m a w v) a w = v := by
  cases w
  · simp [readLE, writeLE]
  · simp only [readLE, writeLE, read_write]
    apply BitVec.eq_of_getLsbD_eq; intro i hi
    simp only [BitVec.getLsbD_append]
    simp
    grind
  · have h := append_wordBytes v
    simp [readLE, writeLE, read_write, h]

/-! ### MemRead and loads -/

theorem memRead_misaligned {s : State} {a : Word} {w : Width} (h : aligned a w = false) :
    memRead s a w = .error (.misalignedLoad a w.bytes) := by simp [memRead, h]

theorem memRead_invalid {s : State} {a : Word} {w : Width} (h : aligned a w = true) (hv : accessValid s a w = false) :
    memRead s a w = .error (.loadAccess a w.bytes) := by simp [memRead, h, hv]

theorem memRead_ok {s : State} {a : Word} {w : Width} (h : aligned a w = true) (hv : accessValid s a w = true) :
    memRead s a w = .ok (readLE s.mem a w) := by simp [memRead, h, hv]

/-- The three answers of a load. -/
theorem loadInto_eq (s : State) (rd : RegSpec) (a : Word) (w : Width) (ext : BitVec w.bits → Word) :
    loadInto s rd a w ext =
      if aligned a w = false then .fault (.misalignedLoad a w.bytes)
      else if accessValid s a w = false then .fault (.loadAccess a w.bytes)
      else .next (setPc (writeReg s rd (ext (readLE s.mem a w))) (s.pc + 4#32)) := by
  unfold loadInto memRead raise
  cases aligned a w <;> cases accessValid s a w <;> simp [writeResult_eq]

/-! ### MemWrite and stores -/

/-- The three answers of a store. -/
theorem storeFrom_eq (s : State) (a : Word) (w : Width) (v : BitVec w.bits) :
    storeFrom s a w v =
      if aligned a w = false then .fault (.misalignedStore a w.bytes)
      else if accessValid s a w = false then .fault (.storeAccess a w.bytes)
      else .next (setPc (storeBytes s a w v) (s.pc + 4#32)) := by
  unfold storeFrom memWrite raise
  cases aligned a w <;> cases accessValid s a w <;> simp [advance]

/-- The state a completed store leaves, byte by byte (R35, R47, R169). -/
theorem storesOnly_storeBytes (s : State) (a : Word) (w : Width) (u : Word) (v : BitVec w.bits)
    (h : ∀ k, k < w.bytes → v.extractLsb' (8 * k) 8 = u.extractLsb' (8 * k) 8) :
    StoresOnly s (setPc (storeBytes s a w v) (s.pc + 4#32)) a w u := by
  refine ⟨fun k hk => ?_, fun b hb => ?_, fun b => ?_, fun r => by simp, by simp, ⟨by simp, by simp⟩, by simp, by simp, by simp⟩
  · rw [← h k hk]; exact read_writeLE_same _ _ _ _ hk
  · exact read_writeLE_other _ _ _ _ hb
  · exact mem_markStored _ _ _

/-! ### Jumps and branches -/

/-- The two answers of a jump (R180). -/
theorem jumpAndLink_eq (s : State) (rd : RegSpec) (t : Word) :
    jumpAndLink s rd t =
      if targetAligned t = true then .next (setPc (writeReg s rd (s.pc + 4#32)) t) else .fault (.misalignedFetch t) := rfl

/-- The three answers of a branch (R190). -/
theorem branch_eq (s : State) (c : Bool) (t : Word) :
    branch s c t =
      if c = true then (if targetAligned t = true then .next (setPc s t) else .fault (.misalignedFetch t))
      else .next (setPc s (s.pc + 4#32)) := rfl

/-! ### Fetch -/

theorem fetch_ok {s : State} {a : Word} (h1 : aligned a .word = true) (h2 : accessValid s a .word = true)
    (h3 : anyStored s a .word = false) : fetch s a = .ok (readLE s.mem a .word) := by
  simp [fetch, h1, h2, h3]

/-- A fetched word is the little-endian word in memory, at an aligned and valid address no byte of which was stored to. -/
theorem fetch_eq_ok {s : State} {a : Word} {w : Word} (h : fetch s a = .ok w) :
    aligned a .word = true ∧ accessValid s a .word = true ∧ anyStored s a .word = false ∧ w = readLE s.mem a .word := by
  unfold fetch at h
  cases h1 : aligned a .word <;> cases h2 : accessValid s a .word <;> cases h3 : anyStored s a .word <;> simp_all

/-- Bits 1:0 of a target are zero exactly when it is a multiple of 4 (R180). -/
theorem aligned_word_iff (a : Word) : aligned a .word = targetAligned a := by
  have h : a.toNat % 4 < 4 := Nat.mod_lt _ (by omega)
  rw [Bool.eq_iff_iff]
  simp only [aligned, targetAligned, Width.bytes, beq_iff_eq]
  constructor
  · intro h; apply BitVec.eq_of_toNat_eq; simpa using h
  · intro h; simpa using congrArg BitVec.toNat h

theorem targetAligned_iff (t : Word) : targetAligned t = true ↔ t.toNat % 4 = 0 := by
  rw [← aligned_word_iff]; simp [aligned, Width.bytes]

theorem targetAligned_eq_false_iff (t : Word) : targetAligned t = false ↔ t.toNat % 4 ≠ 0 := by
  rw [← aligned_word_iff]; simp [aligned, Width.bytes]

/-- The pc's successor is aligned when the pc is (R14). -/
theorem targetAligned_add_four {a : Word} (h : targetAligned a = true) : targetAligned (a + 4#32) = true := by
  rw [← aligned_word_iff] at h ⊢
  simp only [aligned, Width.bytes, beq_iff_eq, BitVec.toNat_add, BitVec.toNat_ofNat] at h ⊢
  omega

end Sys2Proof.Machine
end

