-- ==== Sys2Proof/Laws/Exec.lean ====
section
/-! SUPPORT. What executing an instruction can do, said once for all 43: by kind, and as an inversion of a next state.
Later proofs split on these cases and not on the instructions. -/

namespace Sys2Proof.Machine

/-- Arithmetic always completes: it writes its destination and advances the pc. -/
theorem exec_of_arith {i : Instr} {s : State} (h : kindOf s i = .arith) :
    ∃ v, exec i s = .next (setPc (writeReg s (destination i) v) (s.pc + 4#32)) := by
  cases i <;> simp only [kindOf, reduceCtorEq] at h <;> exact ⟨_, writeResult_eq _ _ _⟩

/-- The answers of a load. -/
theorem exec_of_load {i : Instr} {s : State} {a : Word} {w : Width} (h : kindOf s i = .load a w) :
    ∃ v, exec i s =
      if aligned a w = false then .fault (.misalignedLoad a w.bytes)
      else if accessValid s a w = false then .fault (.loadAccess a w.bytes)
      else .next (setPc (writeReg s (destination i) v) (s.pc + 4#32)) := by
  cases i <;> simp only [kindOf, reduceCtorEq, Kind.load.injEq] at h <;> obtain ⟨rfl, rfl⟩ := h <;>
    exact ⟨_, loadInto_eq _ _ _ _ _⟩

/-- The answers of a store. -/
theorem exec_of_store {i : Instr} {s : State} {a : Word} {w : Width} (h : kindOf s i = .store a w) :
    ∃ v, exec i s =
      if aligned a w = false then .fault (.misalignedStore a w.bytes)
      else if accessValid s a w = false then .fault (.storeAccess a w.bytes)
      else .next (setPc (storeBytes s a w v) (s.pc + 4#32)) := by
  cases i <;> simp only [kindOf, reduceCtorEq, Kind.store.injEq] at h <;> obtain ⟨rfl, rfl⟩ := h <;>
    exact ⟨_, storeFrom_eq _ _ _ _⟩

/-- The answers of a jump. -/
theorem exec_of_jump {i : Instr} {s : State} {t : Word} (h : kindOf s i = .jump t) :
    exec i s = if targetAligned t = true then .next (setPc (writeReg s (destination i) (s.pc + 4#32)) t)
      else .fault (.misalignedFetch t) := by
  cases i <;> simp only [kindOf, reduceCtorEq, Kind.jump.injEq] at h <;> subst h <;> rfl

/-- The answers of a branch. -/
theorem exec_of_branch {i : Instr} {s : State} {t : Word} (h : kindOf s i = .branch t) :
    ∃ c : Bool, exec i s =
      if c = true then (if targetAligned t = true then .next (setPc s t) else .fault (.misalignedFetch t))
      else .next (setPc s (s.pc + 4#32)) := by
  cases i <;> simp only [kindOf, reduceCtorEq, Kind.branch.injEq] at h <;> subst h <;> exact ⟨_, rfl⟩

/-- The answers of CSRW. -/
theorem exec_of_csr {i : Instr} {s : State} {csr : CsrNum} {rd : RegSpec} (h : kindOf s i = .csr csr rd) :
    ∃ v, exec i s =
      if rd ≠ 0#5 then .fault (.unsupportedCsrForm rd)
      else if csr = csrStatus then .next (setPc (writeStatus s v) (s.pc + 4#32))
      else if csr = csrStatsEn then .next (setPc (writeStatsEn s v) (s.pc + 4#32))
      else .fault (.unsupportedCsr csr) := by
  cases i <;> simp only [kindOf, reduceCtorEq, Kind.csr.injEq] at h
  obtain ⟨rfl, rfl⟩ := h
  exact ⟨_, rfl⟩

/-- Everything a completed instruction can have done. -/
theorem exec_next_cases {i : Instr} {s t : State} (h : exec i s = .next t) :
    (∃ v p, t = setPc (writeReg s (destination i) v) p ∧
      (p = s.pc + 4#32 ∨ (targetAligned p = true ∧ (kindOf s i = .jump p ∨ kindOf s i = .branch p)))) ∨
    (∃ a w v, kindOf s i = .store a w ∧ aligned a w = true ∧ accessValid s a w = true ∧
      t = setPc (storeBytes s a w v) (s.pc + 4#32)) ∨
    (∃ v, kindOf s i = .csr csrStatus 0#5 ∧ t = setPc (writeStatus s v) (s.pc + 4#32)) ∨
    (∃ v, kindOf s i = .csr csrStatsEn 0#5 ∧ t = setPc (writeStatsEn s v) (s.pc + 4#32)) := by
  cases hk : kindOf s i with
  | arith =>
    obtain ⟨v, e⟩ := exec_of_arith hk
    rw [e] at h; cases h
    exact .inl ⟨v, _, rfl, .inl rfl⟩
  | load a w =>
    obtain ⟨v, e⟩ := exec_of_load hk
    rw [e] at h
    split at h; · cases h
    split at h; · cases h
    cases h
    exact .inl ⟨v, _, rfl, .inl rfl⟩
  | store a w =>
    obtain ⟨v, e⟩ := exec_of_store hk
    rw [e] at h
    split at h; · cases h
    split at h; · cases h
    rename_i h1 h2
    cases h
    exact .inr (.inl ⟨a, w, v, rfl, by simpa using h1, by simpa using h2, rfl⟩)
  | jump p =>
    rw [exec_of_jump hk] at h
    split at h
    · rename_i hp; cases h; exact .inl ⟨_, p, rfl, .inr ⟨hp, .inl rfl⟩⟩
    · cases h
  | branch p =>
    have hd : destination i = 0#5 := by cases i <;> simp only [kindOf, reduceCtorEq] at hk <;> rfl
    obtain ⟨c, e⟩ := exec_of_branch hk
    rw [e] at h
    split at h
    · split at h
      · rename_i hp; cases h; exact .inl ⟨0#32, p, by simp [hd], .inr ⟨hp, .inr rfl⟩⟩
      · cases h
    · cases h; exact .inl ⟨0#32, _, by simp [hd], .inl rfl⟩
  | csr n rd =>
    obtain ⟨v, e⟩ := exec_of_csr hk
    rw [e] at h
    split at h; · cases h
    rename_i hr
    obtain rfl : rd = 0#5 := not_not.mp hr
    split at h
    · rename_i hn; subst hn; cases h; exact .inr (.inr (.inl ⟨v, rfl, rfl⟩))
    split at h
    · rename_i hn; subst hn; cases h; exact .inr (.inr (.inr ⟨v, rfl, rfl⟩))
    · cases h

/-- A step that answers a next state ran an instruction, in a run that had not ended. -/
theorem step_next {s t : State} (h : step s = .next t) :
    ∃ i, nextInstr s = .next i ∧ exec i s = .next t ∧ s.run = .running := by
  unfold step at h
  split at h
  · rename_i i hi
    refine ⟨i, hi, h, ?_⟩
    unfold nextInstr at hi
    split at hi
    · cases hi
    · assumption
  · cases h
  · cases h

/-- What the next instruction is: the run goes on, the fetch succeeds and the word decodes. -/
theorem nextInstr_next {s : State} {i : Instr} (h : nextInstr s = .next i) :
    s.run = .running ∧ ∃ w, fetch s s.pc = .ok w ∧ decodeWord w = .ok i := by
  unfold nextInstr at h
  split at h
  · cases h
  · rename_i hr
    refine ⟨hr, ?_⟩
    split at h
    · cases h
    · rename_i w hw
      split at h
      · cases h
      · rename_i j hj
        cases h
        exact ⟨w, hw, hj⟩

/-- The next instruction, from the fetched word. -/
theorem nextInstr_of_fetch {s : State} {i : Instr} {w : Word} (hr : s.run = .running) (hf : fetch s s.pc = .ok w)
    (hd : decodeWord w = .ok i) : nextInstr s = .next i := by
  simp [nextInstr, hr, hf, hd]

/-- A step executes the next instruction, and adds nothing. -/
theorem step_of_nextInstr {s : State} {i : Instr} (h : nextInstr s = .next i) : step s = exec i s := by
  simp [step, h]

end Sys2Proof.Machine
end

