-- ==== Sys2Proof/Laws/PerInstr.lean ====
section
/-! SUPPORT. For every instruction: its encoding hits its own row of the opcode map, and that row is one of the 43 (30_encoding.md
rules R74 to R83). One lemma per constructor. -/

namespace Sys2Proof.Laws.EncodesRow

/-- The encoded word hits the instruction's row, which stands in the opcode map. -/
def Statement (i : Instr) : Prop := i.row.hits (encode i) = true ∧ i.row ∈ opcodeRows

/-- A word with a row's funct7, funct3 and opcode hits it. -/
theorem hits_of_fields {w p : Word} (f7 : BitVec 7) (f3 : BitVec 3) (op : BitVec 7) (n : String)
    (h : fieldFunct7 w = f7 ∧ fieldFunct3 w = f3 ∧ fieldOpcode w = op) (hp : encodeR f7 0#5 0#5 f3 0#5 op = p) :
    (OpcodeRow.mk n 0xFE00707F#32 p).hits w = true := by
  simpa [OpcodeRow.hits, ← hp] using (mask_R_iff w f7 f3 op).2 h

/-- A word with a row's funct3 and opcode hits it. -/
theorem hits_of_funct3 {w p : Word} (f3 : BitVec 3) (op : BitVec 7) (n : String)
    (h : fieldFunct3 w = f3 ∧ fieldOpcode w = op) (hp : encodeR 0#7 0#5 0#5 f3 0#5 op = p) :
    (OpcodeRow.mk n 0x0000707F#32 p).hits w = true := by
  simpa [OpcodeRow.hits, ← hp] using (mask_I_iff w f3 op).2 h

/-- A word with a row's opcode hits it. -/
theorem hits_of_opcode {w p : Word} (op : BitVec 7) (n : String)
    (h : fieldOpcode w = op) (hp : encodeR 0#7 0#5 0#5 0#3 0#5 op = p) :
    (OpcodeRow.mk n 0x0000007F#32 p).hits w = true := by
  simpa [OpcodeRow.hits, ← hp] using (mask_U_iff w op).2 h

theorem csrw (csr : CsrNum) (rs1 rd : RegSpec) : Statement (.csrw csr rs1 rd) :=
  ⟨hits_of_funct3 0b001#3 0b1110011#7 _ (by simp [encode]) (by decide), by simp [Instr.row, opcodeRows]⟩
theorem add (rd rs1 rs2 : RegSpec) : Statement (.add rd rs1 rs2) :=
  ⟨hits_of_fields 0b0000000#7 0b000#3 0b0110011#7 _ (by simp [encode]) (by decide), by simp [Instr.row, opcodeRows]⟩
theorem sub (rd rs1 rs2 : RegSpec) : Statement (.sub rd rs1 rs2) :=
  ⟨hits_of_fields 0b0100000#7 0b000#3 0b0110011#7 _ (by simp [encode]) (by decide), by simp [Instr.row, opcodeRows]⟩
theorem and (rd rs1 rs2 : RegSpec) : Statement (.and rd rs1 rs2) :=
  ⟨hits_of_fields 0b0000000#7 0b111#3 0b0110011#7 _ (by simp [encode]) (by decide), by simp [Instr.row, opcodeRows]⟩
theorem or (rd rs1 rs2 : RegSpec) : Statement (.or rd rs1 rs2) :=
  ⟨hits_of_fields 0b0000000#7 0b110#3 0b0110011#7 _ (by simp [encode]) (by decide), by simp [Instr.row, opcodeRows]⟩
theorem xor (rd rs1 rs2 : RegSpec) : Statement (.xor rd rs1 rs2) :=
  ⟨hits_of_fields 0b0000000#7 0b100#3 0b0110011#7 _ (by simp [encode]) (by decide), by simp [Instr.row, opcodeRows]⟩
theorem slt (rd rs1 rs2 : RegSpec) : Statement (.slt rd rs1 rs2) :=
  ⟨hits_of_fields 0b0000000#7 0b010#3 0b0110011#7 _ (by simp [encode]) (by decide), by simp [Instr.row, opcodeRows]⟩
theorem sltu (rd rs1 rs2 : RegSpec) : Statement (.sltu rd rs1 rs2) :=
  ⟨hits_of_fields 0b0000000#7 0b011#3 0b0110011#7 _ (by simp [encode]) (by decide), by simp [Instr.row, opcodeRows]⟩
theorem sra (rd rs1 rs2 : RegSpec) : Statement (.sra rd rs1 rs2) :=
  ⟨hits_of_fields 0b0100000#7 0b101#3 0b0110011#7 _ (by simp [encode]) (by decide), by simp [Instr.row, opcodeRows]⟩
theorem srl (rd rs1 rs2 : RegSpec) : Statement (.srl rd rs1 rs2) :=
  ⟨hits_of_fields 0b0000000#7 0b101#3 0b0110011#7 _ (by simp [encode]) (by decide), by simp [Instr.row, opcodeRows]⟩
theorem sll (rd rs1 rs2 : RegSpec) : Statement (.sll rd rs1 rs2) :=
  ⟨hits_of_fields 0b0000000#7 0b001#3 0b0110011#7 _ (by simp [encode]) (by decide), by simp [Instr.row, opcodeRows]⟩
theorem mul (rd rs1 rs2 : RegSpec) : Statement (.mul rd rs1 rs2) :=
  ⟨hits_of_fields 0b0000001#7 0b000#3 0b0110011#7 _ (by simp [encode]) (by decide), by simp [Instr.row, opcodeRows]⟩
theorem div (rd rs1 rs2 : RegSpec) : Statement (.div rd rs1 rs2) :=
  ⟨hits_of_fields 0b0000001#7 0b100#3 0b0110011#7 _ (by simp [encode]) (by decide), by simp [Instr.row, opcodeRows]⟩
theorem divu (rd rs1 rs2 : RegSpec) : Statement (.divu rd rs1 rs2) :=
  ⟨hits_of_fields 0b0000001#7 0b101#3 0b0110011#7 _ (by simp [encode]) (by decide), by simp [Instr.row, opcodeRows]⟩
theorem rem (rd rs1 rs2 : RegSpec) : Statement (.rem rd rs1 rs2) :=
  ⟨hits_of_fields 0b0000001#7 0b110#3 0b0110011#7 _ (by simp [encode]) (by decide), by simp [Instr.row, opcodeRows]⟩
theorem remu (rd rs1 rs2 : RegSpec) : Statement (.remu rd rs1 rs2) :=
  ⟨hits_of_fields 0b0000001#7 0b111#3 0b0110011#7 _ (by simp [encode]) (by decide), by simp [Instr.row, opcodeRows]⟩
theorem addi (rd rs1 : RegSpec) (imm : BitVec 12) : Statement (.addi rd rs1 imm) :=
  ⟨hits_of_funct3 0b000#3 0b0010011#7 _ (by simp [encode]) (by decide), by simp [Instr.row, opcodeRows]⟩
theorem andi (rd rs1 : RegSpec) (imm : BitVec 12) : Statement (.andi rd rs1 imm) :=
  ⟨hits_of_funct3 0b111#3 0b0010011#7 _ (by simp [encode]) (by decide), by simp [Instr.row, opcodeRows]⟩
theorem ori (rd rs1 : RegSpec) (imm : BitVec 12) : Statement (.ori rd rs1 imm) :=
  ⟨hits_of_funct3 0b110#3 0b0010011#7 _ (by simp [encode]) (by decide), by simp [Instr.row, opcodeRows]⟩
theorem xori (rd rs1 : RegSpec) (imm : BitVec 12) : Statement (.xori rd rs1 imm) :=
  ⟨hits_of_funct3 0b100#3 0b0010011#7 _ (by simp [encode]) (by decide), by simp [Instr.row, opcodeRows]⟩
theorem slti (rd rs1 : RegSpec) (imm : BitVec 12) : Statement (.slti rd rs1 imm) :=
  ⟨hits_of_funct3 0b010#3 0b0010011#7 _ (by simp [encode]) (by decide), by simp [Instr.row, opcodeRows]⟩
theorem sltiu (rd rs1 : RegSpec) (imm : BitVec 12) : Statement (.sltiu rd rs1 imm) :=
  ⟨hits_of_funct3 0b011#3 0b0010011#7 _ (by simp [encode]) (by decide), by simp [Instr.row, opcodeRows]⟩
theorem srai (rd rs1 : RegSpec) (shamt : BitVec 5) : Statement (.srai rd rs1 shamt) :=
  ⟨hits_of_fields 0b0100000#7 0b101#3 0b0010011#7 _ (by simp [encode]) (by decide), by simp [Instr.row, opcodeRows]⟩
theorem srli (rd rs1 : RegSpec) (shamt : BitVec 5) : Statement (.srli rd rs1 shamt) :=
  ⟨hits_of_fields 0b0000000#7 0b101#3 0b0010011#7 _ (by simp [encode]) (by decide), by simp [Instr.row, opcodeRows]⟩
theorem slli (rd rs1 : RegSpec) (shamt : BitVec 5) : Statement (.slli rd rs1 shamt) :=
  ⟨hits_of_fields 0b0000000#7 0b001#3 0b0010011#7 _ (by simp [encode]) (by decide), by simp [Instr.row, opcodeRows]⟩
theorem lui (rd : RegSpec) (imm : BitVec 20) : Statement (.lui rd imm) :=
  ⟨hits_of_opcode 0b0110111#7 _ (by simp [encode]) (by decide), by simp [Instr.row, opcodeRows]⟩
theorem auipc (rd : RegSpec) (imm : BitVec 20) : Statement (.auipc rd imm) :=
  ⟨hits_of_opcode 0b0010111#7 _ (by simp [encode]) (by decide), by simp [Instr.row, opcodeRows]⟩
theorem lw (rd rs1 : RegSpec) (imm : BitVec 12) : Statement (.lw rd rs1 imm) :=
  ⟨hits_of_funct3 0b010#3 0b0000011#7 _ (by simp [encode]) (by decide), by simp [Instr.row, opcodeRows]⟩
theorem sw (rs2 rs1 : RegSpec) (imm : BitVec 12) : Statement (.sw rs2 rs1 imm) :=
  ⟨hits_of_funct3 0b010#3 0b0100011#7 _ (by simp [encode]) (by decide), by simp [Instr.row, opcodeRows]⟩
theorem lh (rd rs1 : RegSpec) (imm : BitVec 12) : Statement (.lh rd rs1 imm) :=
  ⟨hits_of_funct3 0b001#3 0b0000011#7 _ (by simp [encode]) (by decide), by simp [Instr.row, opcodeRows]⟩
theorem lhu (rd rs1 : RegSpec) (imm : BitVec 12) : Statement (.lhu rd rs1 imm) :=
  ⟨hits_of_funct3 0b101#3 0b0000011#7 _ (by simp [encode]) (by decide), by simp [Instr.row, opcodeRows]⟩
theorem lb (rd rs1 : RegSpec) (imm : BitVec 12) : Statement (.lb rd rs1 imm) :=
  ⟨hits_of_funct3 0b000#3 0b0000011#7 _ (by simp [encode]) (by decide), by simp [Instr.row, opcodeRows]⟩
theorem lbu (rd rs1 : RegSpec) (imm : BitVec 12) : Statement (.lbu rd rs1 imm) :=
  ⟨hits_of_funct3 0b100#3 0b0000011#7 _ (by simp [encode]) (by decide), by simp [Instr.row, opcodeRows]⟩
theorem sh (rs2 rs1 : RegSpec) (imm : BitVec 12) : Statement (.sh rs2 rs1 imm) :=
  ⟨hits_of_funct3 0b001#3 0b0100011#7 _ (by simp [encode]) (by decide), by simp [Instr.row, opcodeRows]⟩
theorem sb (rs2 rs1 : RegSpec) (imm : BitVec 12) : Statement (.sb rs2 rs1 imm) :=
  ⟨hits_of_funct3 0b000#3 0b0100011#7 _ (by simp [encode]) (by decide), by simp [Instr.row, opcodeRows]⟩
theorem jal (rd : RegSpec) (imm : BitVec 21) : Statement (.jal rd imm) :=
  ⟨hits_of_opcode 0b1101111#7 _ (by simp [encode]) (by decide), by simp [Instr.row, opcodeRows]⟩
theorem jalr (rd rs1 : RegSpec) (imm : BitVec 12) : Statement (.jalr rd rs1 imm) :=
  ⟨hits_of_funct3 0b000#3 0b1100111#7 _ (by simp [encode]) (by decide), by simp [Instr.row, opcodeRows]⟩
theorem beq (rs1 rs2 : RegSpec) (imm : BitVec 13) : Statement (.beq rs1 rs2 imm) :=
  ⟨hits_of_funct3 0b000#3 0b1100011#7 _ (by simp [encode]) (by decide), by simp [Instr.row, opcodeRows]⟩
theorem bne (rs1 rs2 : RegSpec) (imm : BitVec 13) : Statement (.bne rs1 rs2 imm) :=
  ⟨hits_of_funct3 0b001#3 0b1100011#7 _ (by simp [encode]) (by decide), by simp [Instr.row, opcodeRows]⟩
theorem blt (rs1 rs2 : RegSpec) (imm : BitVec 13) : Statement (.blt rs1 rs2 imm) :=
  ⟨hits_of_funct3 0b100#3 0b1100011#7 _ (by simp [encode]) (by decide), by simp [Instr.row, opcodeRows]⟩
theorem bge (rs1 rs2 : RegSpec) (imm : BitVec 13) : Statement (.bge rs1 rs2 imm) :=
  ⟨hits_of_funct3 0b101#3 0b1100011#7 _ (by simp [encode]) (by decide), by simp [Instr.row, opcodeRows]⟩
theorem bltu (rs1 rs2 : RegSpec) (imm : BitVec 13) : Statement (.bltu rs1 rs2 imm) :=
  ⟨hits_of_funct3 0b110#3 0b1100011#7 _ (by simp [encode]) (by decide), by simp [Instr.row, opcodeRows]⟩
theorem bgeu (rs1 rs2 : RegSpec) (imm : BitVec 13) : Statement (.bgeu rs1 rs2 imm) :=
  ⟨hits_of_funct3 0b111#3 0b1100011#7 _ (by simp [encode]) (by decide), by simp [Instr.row, opcodeRows]⟩

end Sys2Proof.Laws.EncodesRow
end

