-- ==== Sys2Proof/Tests/Slice0.lean ====
section
/-! SUPPORT. Tests of the model, each one step on a small state, with expected values from 95_test_vectors.md (the section is
named) or from the rule named; the smoke test of WellFormed; and for every obligation with hypotheses a state and operands
that meet them (the witnesses). -/

namespace Sys2Proof.Tests

open Sys2Proof.Machine

/-! ### Helpers -/

/-- The outcome is a next state with a property. -/
def nextThat (o : Host.Outcome State Fault Refusal) (p : State → Bool) : Bool :=
  match o with
  | .next t => p t
  | .fault _ => false
  | .refused _ => false

/-- The outcome is a next state. -/
def isNext (o : Host.Outcome State Fault Refusal) : Bool := nextThat o fun _ => true

/-- The outcome is a given fault. -/
def faultIs (o : Host.Outcome State Fault Refusal) (f : Fault) : Bool :=
  match o with
  | .next _ => false
  | .fault g => g == f
  | .refused _ => false

theorem exists_next {o : Host.Outcome State Fault Refusal} (h : isNext o = true) : ∃ t, o = .next t := by
  cases o with
  | next t => exact ⟨t, rfl⟩
  | fault _ => simp [isNext, nextThat] at h
  | refused _ => simp [isNext, nextThat] at h

theorem exists_nextThat {o : Host.Outcome State Fault Refusal} {p : State → Bool} (h : nextThat o p = true) :
    ∃ t, o = .next t ∧ p t = true := by
  cases o with
  | next t => exact ⟨t, rfl, h⟩
  | fault _ => simp [nextThat] at h
  | refused _ => simp [nextThat] at h

theorem eq_fault {o : Host.Outcome State Fault Refusal} {f : Fault} (h : faultIs o f = true) : o = .fault f := by
  cases o with
  | next _ => simp [faultIs] at h
  | fault g => simp [faultIs] at h; rw [h]
  | refused _ => simp [faultIs] at h

/-- The eight data bytes of section 2.6, at 0x1000 to 0x1007. -/
def dataBytes : Memory :=
  [(0x1000, 0x11#8), (0x1001, 0x22#8), (0x1002, 0x83#8), (0x1003, 0xF4#8),
   (0x1004, 0x55#8), (0x1005, 0x66#8), (0x1006, 0x77#8), (0x1007, 0x88#8)]

/-- A state at a pc where exactly 0x1000 to 0x1007 hold memory, with x1, x2 and x5 given (section 2.6). -/
def small (pc x1 x2 x5 : Word) : State :=
  { writeReg (writeReg (writeReg (State.resetWith (Vector.replicate 31 0#32) 0#32 0#32 [⟨0x1000, 8⟩] dataBytes)
      1#5 x1) 2#5 x2) 5#5 x5 with pc := pc }

/-- One step from `s` of an instruction word gives a next state with a property. -/
def runs (s : State) (word : Nat) (p : State → Bool) : Bool := nextThat (step (s.withFetchWord 32 word)) p

/-- One step from `s` of an instruction word stops with a fault. -/
def stops (s : State) (word : Nat) (f : Fault) : Bool := faultIs (step (s.withFetchWord 32 word)) f

/-- A word run at the reset vector with x1 and x2 given writes x3 and advances the pc. -/
def gives (word : Nat) (x1 x2 x3 : Word) : Bool :=
  runs (small 0x00080000#32 x1 x2 0#32) word fun t =>
    readReg t 3#5 == x3 && readReg t 1#5 == x1 && readReg t 2#5 == x2 && t.pc == 0x00080004#32

/-- The eight data bytes of a state. -/
def dataOf (s : State) : List Byte :=
  [s.mem.read 0x1000#32, s.mem.read 0x1001#32, s.mem.read 0x1002#32, s.mem.read 0x1003#32,
   s.mem.read 0x1004#32, s.mem.read 0x1005#32, s.mem.read 0x1006#32, s.mem.read 0x1007#32]

/-! ### WellFormed: each check refuses an ill-formed term (R68, R70) -/

theorem test_wf_beq : (Instr.beq 1#5 2#5 5#13).wf = false ∧ (Instr.beq 1#5 2#5 4094#13).wf = true := by decide

theorem test_wf_bne : (Instr.bne 1#5 2#5 5#13).wf = false ∧ (Instr.bne 1#5 2#5 4094#13).wf = true := by decide

theorem test_wf_blt : (Instr.blt 1#5 2#5 5#13).wf = false ∧ (Instr.blt 1#5 2#5 4094#13).wf = true := by decide

theorem test_wf_bge : (Instr.bge 1#5 2#5 5#13).wf = false ∧ (Instr.bge 1#5 2#5 4094#13).wf = true := by decide

theorem test_wf_bltu : (Instr.bltu 1#5 2#5 5#13).wf = false ∧ (Instr.bltu 1#5 2#5 4094#13).wf = true := by decide

theorem test_wf_bgeu : (Instr.bgeu 1#5 2#5 5#13).wf = false ∧ (Instr.bgeu 1#5 2#5 4094#13).wf = true := by decide

theorem test_wf_jal : (Instr.jal 1#5 1#21).wf = false ∧ (Instr.jal 1#5 0xFFFFE#21).wf = true := by decide

/-! ### Decoding: one word of every constructor, from the tables of 95_test_vectors.md section 2.1 -/

theorem test_decode_csr :
    decodeTableWord 32 0x01551073 = some (.csrw 0x015#12 10#5 0#5) ∧
    decodeTableWord 32 0x00A29073 = some (.csrw 0x00A#12 5#5 0#5) ∧
    decodeTableWord 32 0x015510F3 = some (.csrw 0x015#12 10#5 1#5) ∧
    decodeTableWord 32 0xFFF01073 = some (.csrw 0xFFF#12 0#5 0#5) := by decide

theorem test_encode_csr :
    encode (.csrw 0x015#12 10#5 0#5) = 0x01551073#32 ∧
    encode (.csrw 0x00A#12 5#5 0#5) = 0x00A29073#32 ∧
    encode (.csrw 0x015#12 10#5 1#5) = 0x015510F3#32 ∧
    encode (.csrw 0xFFF#12 0#5 0#5) = 0xFFF01073#32 := by decide

theorem test_decode_reg_reg :
    decodeTableWord 32 0x002081B3 = some (.add 3#5 1#5 2#5) ∧
    decodeTableWord 32 0x402081B3 = some (.sub 3#5 1#5 2#5) ∧
    decodeTableWord 32 0x002091B3 = some (.sll 3#5 1#5 2#5) ∧
    decodeTableWord 32 0x0020A1B3 = some (.slt 3#5 1#5 2#5) ∧
    decodeTableWord 32 0x0020B1B3 = some (.sltu 3#5 1#5 2#5) ∧
    decodeTableWord 32 0x0020C1B3 = some (.xor 3#5 1#5 2#5) ∧
    decodeTableWord 32 0x0020D1B3 = some (.srl 3#5 1#5 2#5) ∧
    decodeTableWord 32 0x4020D1B3 = some (.sra 3#5 1#5 2#5) ∧
    decodeTableWord 32 0x0020E1B3 = some (.or 3#5 1#5 2#5) ∧
    decodeTableWord 32 0x0020F1B3 = some (.and 3#5 1#5 2#5) := by decide

theorem test_encode_reg_reg :
    encode (.add 3#5 1#5 2#5) = 0x002081B3#32 ∧
    encode (.sub 3#5 1#5 2#5) = 0x402081B3#32 ∧
    encode (.sll 3#5 1#5 2#5) = 0x002091B3#32 ∧
    encode (.slt 3#5 1#5 2#5) = 0x0020A1B3#32 ∧
    encode (.sltu 3#5 1#5 2#5) = 0x0020B1B3#32 ∧
    encode (.xor 3#5 1#5 2#5) = 0x0020C1B3#32 ∧
    encode (.srl 3#5 1#5 2#5) = 0x0020D1B3#32 ∧
    encode (.sra 3#5 1#5 2#5) = 0x4020D1B3#32 ∧
    encode (.or 3#5 1#5 2#5) = 0x0020E1B3#32 ∧
    encode (.and 3#5 1#5 2#5) = 0x0020F1B3#32 := by decide

theorem test_decode_mul_div :
    decodeTableWord 32 0x022081B3 = some (.mul 3#5 1#5 2#5) ∧
    decodeTableWord 32 0x0220C1B3 = some (.div 3#5 1#5 2#5) ∧
    decodeTableWord 32 0x0220D1B3 = some (.divu 3#5 1#5 2#5) ∧
    decodeTableWord 32 0x0220E1B3 = some (.rem 3#5 1#5 2#5) ∧
    decodeTableWord 32 0x0220F1B3 = some (.remu 3#5 1#5 2#5) := by decide

theorem test_encode_mul_div :
    encode (.mul 3#5 1#5 2#5) = 0x022081B3#32 ∧
    encode (.div 3#5 1#5 2#5) = 0x0220C1B3#32 ∧
    encode (.divu 3#5 1#5 2#5) = 0x0220D1B3#32 ∧
    encode (.rem 3#5 1#5 2#5) = 0x0220E1B3#32 ∧
    encode (.remu 3#5 1#5 2#5) = 0x0220F1B3#32 := by decide

theorem test_decode_reg_imm :
    decodeTableWord 32 0xFFF08193 = some (.addi 3#5 1#5 (-1)) ∧
    decodeTableWord 32 0xFFF0A193 = some (.slti 3#5 1#5 (-1)) ∧
    decodeTableWord 32 0xFFF0B193 = some (.sltiu 3#5 1#5 (-1)) ∧
    decodeTableWord 32 0xFFF0C193 = some (.xori 3#5 1#5 (-1)) ∧
    decodeTableWord 32 0xF000E193 = some (.ori 3#5 1#5 (-256)) ∧
    decodeTableWord 32 0x0F00F193 = some (.andi 3#5 1#5 240#12) ∧
    decodeTableWord 32 0x00409193 = some (.slli 3#5 1#5 4#5) ∧
    decodeTableWord 32 0x0040D193 = some (.srli 3#5 1#5 4#5) ∧
    decodeTableWord 32 0x4040D193 = some (.srai 3#5 1#5 4#5) ∧
    decodeTableWord 32 0x41F0D193 = some (.srai 3#5 1#5 31#5) ∧
    decodeTableWord 32 0xABCDE1B7 = some (.lui 3#5 0xABCDE#20) ∧
    decodeTableWord 32 0x00001197 = some (.auipc 3#5 1#20) := by decide

theorem test_encode_reg_imm :
    encode (.addi 3#5 1#5 (-1)) = 0xFFF08193#32 ∧
    encode (.slti 3#5 1#5 (-1)) = 0xFFF0A193#32 ∧
    encode (.sltiu 3#5 1#5 (-1)) = 0xFFF0B193#32 ∧
    encode (.xori 3#5 1#5 (-1)) = 0xFFF0C193#32 ∧
    encode (.ori 3#5 1#5 (-256)) = 0xF000E193#32 ∧
    encode (.andi 3#5 1#5 240#12) = 0x0F00F193#32 ∧
    encode (.slli 3#5 1#5 4#5) = 0x00409193#32 ∧
    encode (.srli 3#5 1#5 4#5) = 0x0040D193#32 ∧
    encode (.srai 3#5 1#5 4#5) = 0x4040D193#32 ∧
    encode (.srai 3#5 1#5 31#5) = 0x41F0D193#32 ∧
    encode (.lui 3#5 0xABCDE#20) = 0xABCDE1B7#32 ∧
    encode (.auipc 3#5 1#20) = 0x00001197#32 := by decide

theorem test_decode_memory :
    decodeTableWord 32 0x00308183 = some (.lb 3#5 1#5 3#12) ∧
    decodeTableWord 32 0x00209183 = some (.lh 3#5 1#5 2#12) ∧
    decodeTableWord 32 0x0040A183 = some (.lw 3#5 1#5 4#12) ∧
    decodeTableWord 32 0x0030C183 = some (.lbu 3#5 1#5 3#12) ∧
    decodeTableWord 32 0x0020D183 = some (.lhu 3#5 1#5 2#12) ∧
    decodeTableWord 32 0x002080A3 = some (.sb 2#5 1#5 1#12) ∧
    decodeTableWord 32 0x00209323 = some (.sh 2#5 1#5 6#12) ∧
    decodeTableWord 32 0x0020A423 = some (.sw 2#5 1#5 8#12) := by decide

theorem test_encode_memory :
    encode (.lb 3#5 1#5 3#12) = 0x00308183#32 ∧
    encode (.lh 3#5 1#5 2#12) = 0x00209183#32 ∧
    encode (.lw 3#5 1#5 4#12) = 0x0040A183#32 ∧
    encode (.lbu 3#5 1#5 3#12) = 0x0030C183#32 ∧
    encode (.lhu 3#5 1#5 2#12) = 0x0020D183#32 ∧
    encode (.sb 2#5 1#5 1#12) = 0x002080A3#32 ∧
    encode (.sh 2#5 1#5 6#12) = 0x00209323#32 ∧
    encode (.sw 2#5 1#5 8#12) = 0x0020A423#32 := by decide

theorem test_decode_jumps :
    decodeTableWord 32 0x010000EF = some (.jal 1#5 16#21) ∧
    decodeTableWord 32 0x004280E7 = some (.jalr 1#5 5#5 4#12) := by decide

theorem test_encode_jumps :
    encode (.jal 1#5 16#21) = 0x010000EF#32 ∧
    encode (.jalr 1#5 5#5 4#12) = 0x004280E7#32 := by decide

theorem test_decode_branches :
    decodeTableWord 32 0x00208463 = some (.beq 1#5 2#5 8#13) ∧
    decodeTableWord 32 0xFE209EE3 = some (.bne 1#5 2#5 (-4)) ∧
    decodeTableWord 32 0x0020C463 = some (.blt 1#5 2#5 8#13) ∧
    decodeTableWord 32 0x0020D463 = some (.bge 1#5 2#5 8#13) ∧
    decodeTableWord 32 0x0020E463 = some (.bltu 1#5 2#5 8#13) ∧
    decodeTableWord 32 0x8020F063 = some (.bgeu 1#5 2#5 (-4096)) := by decide

theorem test_encode_branches :
    encode (.beq 1#5 2#5 8#13) = 0x00208463#32 ∧
    encode (.bne 1#5 2#5 (-4)) = 0xFE209EE3#32 ∧
    encode (.blt 1#5 2#5 8#13) = 0x0020C463#32 ∧
    encode (.bge 1#5 2#5 8#13) = 0x0020D463#32 ∧
    encode (.bltu 1#5 2#5 8#13) = 0x0020E463#32 ∧
    encode (.bgeu 1#5 2#5 (-4096)) = 0x8020F063#32 := by decide

/-! Immediates, from section 2.2. -/

theorem test_imm_i :
    (immI (fieldImmI 0x7FF00013#32)).toInt = 2047 ∧
    (immI (fieldImmI 0x80000013#32)).toInt = -2048 ∧
    (immI (fieldImmI 0x55508093#32)).toInt = 1365 := by decide

theorem test_imm_s :
    (immS (fieldImmS 0xFE208FA3#32)).toInt = -1 ∧
    (immS (fieldImmS 0x7E20AFA3#32)).toInt = 2047 ∧
    (immS (fieldImmS 0x8020A023#32)).toInt = -2048 ∧
    (immS (fieldImmS 0x55FFAAA3#32)).toInt = 1365 := by decide

theorem test_imm_b :
    (immB (fieldImmB 0xFE209EE3#32)).toInt = -4 ∧
    (immB (fieldImmB 0x8020F063#32)).toInt = -4096 ∧
    (immB (fieldImmB 0x7E208FE3#32)).toInt = 4094 ∧
    (immB (fieldImmB 0x000000E3#32)).toInt = 2048 ∧
    (immB (fieldImmB 0xFE000FE3#32)).toInt = -2 ∧
    (immB (fieldImmB 0x2A0005E3#32)).toInt = 2730 := by decide

theorem test_imm_j :
    (immJ (fieldImmJ 0x010000EF#32)).toInt = 16 ∧
    (immJ (fieldImmJ 0xFF9FF06F#32)).toInt = -8 ∧
    (immJ (fieldImmJ 0x0010006F#32)).toInt = 2048 ∧
    (immJ (fieldImmJ 0x800000EF#32)).toInt = -1048576 ∧
    (immJ (fieldImmJ 0x7FFFF0EF#32)).toInt = 1048574 ∧
    (immJ (fieldImmJ 0x0000106F#32)).toInt = 4096 ∧
    (immJ (fieldImmJ 0xFFFFF06F#32)).toInt = -2 ∧
    (immJ (fieldImmJ 0x2ABAA06F#32)).toInt = 699050 := by decide

theorem test_imm_u :
    immU (fieldImmU 0xABCDE1B7#32) = 0xABCDE000#32 ∧
    immU (fieldImmU 0xFFFFF0B7#32) = 0xFFFFF000#32 ∧
    immU (fieldImmU 0x000010B7#32) = 0x00001000#32 := by decide

/-! Words that are no instruction, from section 2.3. -/

theorem test_not_instructions :
    [0x00000000, 0xFFFFFFFF, 0x00000001, 0x02001033, 0x02002033, 0x02003033, 0x40001033,
     0x20000033, 0x40001013, 0x02005013, 0x00003003, 0x00006003, 0x00003023, 0x00002063,
     0x00003063, 0x00001067, 0x00000073, 0x00100073, 0x30200073, 0x10500073, 0x00002073,
     0x00005073, 0x0000000F, 0x0000100F, 0x0000002F, 0x00000007].all (fun w => decodeTableWord 32 w == none) = true := by decide

theorem test_illegal_stops :
    stops (small 0x00080000#32 0#32 0#32 0#32) 0x00000073 (.illegalInstruction 0x00080000#32 0x00000073#32) = true := by decide

theorem test_truncated : decode [0x13#8, 0x00#8, 0x00#8] = .error .truncated ∧
    decode [0x13#8, 0x00#8, 0x00#8, 0x00#8, 0x7F#8] = .ok (.addi 0#5 0#5 0#12, [0x7F#8]) := by decide

/-! ### Register-register arithmetic (section 2.4) -/

theorem test_add_wraps : gives 0x002081B3 0x80000000#32 0x80000000#32 0x00000000#32 = true := by decide

theorem test_sub_borrows : gives 0x402081B3 0x00000005#32 0x00000007#32 0xFFFFFFFE#32 = true := by decide

theorem test_and_bits : gives 0x0020F1B3 0xFF00FF00#32 0x0FF00FF0#32 0x0F000F00#32 = true := by decide

theorem test_or_bits : gives 0x0020E1B3 0xFF00FF00#32 0x0FF00FF0#32 0xFFF0FFF0#32 = true := by decide

theorem test_xor_bits : gives 0x0020C1B3 0xFF00FF00#32 0x0FF00FF0#32 0xF0F0F0F0#32 = true := by decide

theorem test_slt_negative : gives 0x0020A1B3 0x80000000#32 0x7FFFFFFF#32 0x00000001#32 = true := by decide

theorem test_slt_equal : gives 0x0020A1B3 0x00000005#32 0x00000005#32 0x00000000#32 = true := by decide

theorem test_sltu_large : gives 0x0020B1B3 0x80000000#32 0x7FFFFFFF#32 0x00000000#32 = true := by decide

theorem test_sltu_small : gives 0x0020B1B3 0x00000000#32 0x00000001#32 0x00000001#32 = true := by decide

theorem test_sra_sign : gives 0x4020D1B3 0x80000000#32 0x00000004#32 0xF8000000#32 = true := by decide

theorem test_sra_amount_32 : gives 0x4020D1B3 0x12345678#32 0x00000020#32 0x12345678#32 = true := by decide

theorem test_srl_zeros : gives 0x0020D1B3 0xFFFFFFF0#32 0x00000024#32 0x0FFFFFFF#32 = true := by decide

theorem test_srl_amount_ones : gives 0x0020D1B3 0xFFFFFFFF#32 0xFFFFFFFF#32 0x00000001#32 = true := by decide

theorem test_sll_31 : gives 0x002091B3 0x00000001#32 0x0000001F#32 0x80000000#32 = true := by decide

theorem test_sll_amount_33 : gives 0x002091B3 0x00000003#32 0x00000021#32 0x00000006#32 = true := by decide

theorem test_mul_low : gives 0x022081B3 0x12345678#32 0x9ABCDEF0#32 0x242D2080#32 = true := by decide

theorem test_mul_signs : gives 0x022081B3 0xFFFFFFFE#32 0x00000003#32 0xFFFFFFFA#32 = true := by decide

theorem test_div_truncates : gives 0x0220C1B3 0xFFFFFFF9#32 0x00000002#32 0xFFFFFFFD#32 = true := by decide

theorem test_div_overflow : gives 0x0220C1B3 0x80000000#32 0xFFFFFFFF#32 0x80000000#32 = true := by decide

theorem test_divu_large : gives 0x0220D1B3 0xFFFFFFEC#32 0x00000006#32 0x2AAAAAA7#32 = true := by decide

theorem test_divu_by_zero : gives 0x0220D1B3 0x00000005#32 0x00000000#32 0xFFFFFFFF#32 = true := by decide

theorem test_rem_sign : gives 0x0220E1B3 0xFFFFFFEC#32 0x00000006#32 0xFFFFFFFE#32 = true := by decide

theorem test_rem_overflow : gives 0x0220E1B3 0x80000000#32 0xFFFFFFFF#32 0x00000000#32 = true := by decide

theorem test_remu_large : gives 0x0220F1B3 0x80000000#32 0xFFFFFFFF#32 0x80000000#32 = true := by decide

theorem test_remu_by_zero : gives 0x0220F1B3 0x00000005#32 0x00000000#32 0x00000005#32 = true := by decide

/-- `sub x1, x2, x1`: both sources are read before the destination is written. -/
theorem test_sub_aliased :
    runs (small 0x00080000#32 3#32 10#32 0#32) 0x401100B3 (fun t => readReg t 1#5 == 7#32) = true := by decide

/-- `add x0, x1, x2`: nothing is written. -/
theorem test_add_to_x0 :
    runs (small 0x00080000#32 5#32 7#32 0#32) 0x00208033 (fun t => readReg t 0#5 == 0#32 && t.x == (small 0#32 5#32 7#32 0#32).x)
      = true := by decide

/-! ### Register-immediate arithmetic (section 2.5) -/

theorem test_addi_minus_one : gives 0xFFF08193 0x80000000#32 0#32 0x7FFFFFFF#32 = true := by decide

theorem test_addi_least : gives 0x80008193 0x00000000#32 0#32 0xFFFFF800#32 = true := by decide

theorem test_andi_sign : gives 0xF000F193 0x12345678#32 0#32 0x12345600#32 = true := by decide

theorem test_ori_sign : gives 0xF000E193 0x12345678#32 0#32 0xFFFFFF78#32 = true := by decide

theorem test_xori_sign : gives 0xFFF0C193 0x12345678#32 0#32 0xEDCBA987#32 = true := by decide

theorem test_slti_signed : gives 0xFFF0A193 0x7FFFFFFF#32 0#32 0x00000000#32 = true := by decide

theorem test_slti_least : gives 0x8000A193 0x80000000#32 0#32 0x00000001#32 = true := by decide

theorem test_sltiu_sign_extends : gives 0x8000B193 0xFFFFF7FF#32 0#32 0x00000001#32 = true := by decide

theorem test_sltiu_equal : gives 0xFFF0B193 0xFFFFFFFF#32 0#32 0x00000000#32 = true := by decide

theorem test_srai_31 : gives 0x41F0D193 0x80000000#32 0#32 0xFFFFFFFF#32 = true := by decide

theorem test_srli_31 : gives 0x01F0D193 0x80000000#32 0#32 0x00000001#32 = true := by decide

theorem test_slli_16 : gives 0x01009193 0x12345678#32 0#32 0x56780000#32 = true := by decide

theorem test_lui_upper : gives 0xABCDE1B7 0x00000000#32 0#32 0xABCDE000#32 = true := by decide

theorem test_auipc_negative : gives 0xFFFFF197 0#32 0#32 0x0007F000#32 = true := by decide

theorem test_auipc_wraps :
    runs (small 0x80000010#32 0#32 0#32 0#32) 0x80000197 (fun t => readReg t 3#5 == 0x00000010#32 && t.pc == 0x80000014#32)
      = true := by decide

/-! ### Loads and stores (section 2.6) -/

/-- Example E1 of the source: letters A to D at 0 to 3 load as 0xDCBA, little-endian (R31). -/
theorem test_little_endian :
    runs (State.resetWith (Vector.replicate 31 0#32) 0#32 0#32 wholeSpace
      [(0, 0x41#8), (1, 0x42#8), (2, 0x43#8), (3, 0x44#8)]) 0x00002183 (fun t => readReg t 3#5 == 0x44434241#32) = true := by
  decide

theorem test_lh_sign : gives 0x00209183 0x00001000#32 0#32 0xFFFFF483#32 = true := by decide

theorem test_lh_top : gives 0xFFE09183 0x00001008#32 0#32 0xFFFF8877#32 = true := by decide

theorem test_lhu_zeros : gives 0x0060D183 0x00001000#32 0#32 0x00008877#32 = true := by decide

theorem test_lb_sign : gives 0x00208183 0x00001000#32 0#32 0xFFFFFF83#32 = true := by decide

theorem test_lbu_zeros : gives 0x0070C183 0x00001000#32 0#32 0x00000088#32 = true := by decide

theorem test_sw :
    runs (small 0x00080000#32 0x00001000#32 0xAABBCCDD#32 0#32) 0x0020A223 (fun t =>
      dataOf t == [0x11#8, 0x22#8, 0x83#8, 0xF4#8, 0xDD#8, 0xCC#8, 0xBB#8, 0xAA#8] && t.x == (small 0#32 0x00001000#32 0xAABBCCDD#32 0#32).x) = true := by decide

theorem test_sh :
    runs (small 0x00080000#32 0x00001000#32 0xAABBCCDD#32 0#32) 0x00209323 (fun t =>
      dataOf t == [0x11#8, 0x22#8, 0x83#8, 0xF4#8, 0x55#8, 0x66#8, 0xDD#8, 0xCC#8] && t.x == (small 0#32 0x00001000#32 0xAABBCCDD#32 0#32).x) = true := by decide

theorem test_sb_negative_offset :
    runs (small 0x00080000#32 0x00001008#32 0xAABBCCDD#32 0#32) 0xFE208FA3 (fun t =>
      dataOf t == [0x11#8, 0x22#8, 0x83#8, 0xF4#8, 0x55#8, 0x66#8, 0x77#8, 0xDD#8] && t.x == (small 0#32 0x00001008#32 0xAABBCCDD#32 0#32).x) = true := by decide

theorem test_lw_to_x0_misaligned :
    stops (small 0x00080000#32 0x00001000#32 1#32 0#32) 0x0020A003 (.misalignedLoad 0x00001002#32 4) = true := by decide

theorem test_lhu_misaligned :
    stops (small 0x00080000#32 0x00001000#32 1#32 0#32) 0x0030D183 (.misalignedLoad 0x00001003#32 2) = true := by decide

theorem test_lb_outside :
    stops (small 0x00080000#32 0x00001000#32 1#32 0#32) 0xFFF08183 (.loadAccess 0x00000FFF#32 1) = true := by decide

theorem test_sw_misaligned :
    stops (small 0x00080000#32 0x00001000#32 1#32 0#32) 0x0020A123 (.misalignedStore 0x00001002#32 4) = true := by decide

theorem test_sh_misaligned :
    stops (small 0x00080000#32 0x00001000#32 1#32 0#32) 0x002090A3 (.misalignedStore 0x00001001#32 2) = true := by decide

theorem test_sb_outside :
    stops (small 0x00080000#32 0x00001000#32 1#32 0#32) 0x00208423 (.storeAccess 0x00001008#32 1) = true := by decide

/-! ### Jumps (section 2.7) -/

theorem test_jal_back :
    runs (small 0x00180000#32 0#32 0#32 0#32) 0x800000EF (fun t => t.pc == 0x00080000#32 && readReg t 1#5 == 0x00180004#32) = true := by decide

/-- `jalr x1, x1, 8`: the target comes from the old x1. -/
theorem test_jalr_aliased :
    runs (small 0x00080000#32 0x00080100#32 0#32 0#32) 0x008080E7
      (fun t => t.pc == 0x00080108#32 && readReg t 1#5 == 0x00080004#32) = true := by decide

theorem test_jal_misaligned :
    stops (small 0x00080000#32 0#32 0#32 0x55#32) 0x006002EF (.misalignedFetch 0x00080006#32) = true := by decide

theorem test_jalr_misaligned :
    stops (small 0x00080000#32 0#32 0#32 0x00080103#32) 0xFFC280E7 (.misalignedFetch 0x000800FE#32) = true := by decide

/-! ### Branches (section 2.8) -/

/-- A branch word at a pc with x1 and x2 given goes to a pc and writes no register. -/
def goesTo (word : Nat) (pc x1 x2 target : Word) : Bool :=
  runs (small pc x1 x2 0#32) word fun t => t.pc == target && t.x == (small pc x1 x2 0#32).x

theorem test_bne_taken : goesTo 0xFE209EE3 0x00080010#32 1#32 0#32 0x0008000C#32 = true := by decide

theorem test_bne_not_taken : goesTo 0xFE209EE3 0x00080010#32 3#32 3#32 0x00080014#32 = true := by decide

theorem test_blt_taken : goesTo 0x0020C463 0x00080000#32 0x80000000#32 0x7FFFFFFF#32 0x00080008#32 = true := by decide

theorem test_blt_not_taken : goesTo 0x0020C463 0x00080000#32 1#32 0xFFFFFFFF#32 0x00080004#32 = true := by decide

theorem test_bge_equal : goesTo 0x0020D463 0x00080000#32 0x80000000#32 0x80000000#32 0x00080008#32 = true := by decide

theorem test_bge_not_taken : goesTo 0x0020D463 0x00080000#32 0xFFFFFFFF#32 1#32 0x00080004#32 = true := by decide

theorem test_bltu_taken : goesTo 0x0020E463 0x00080000#32 1#32 0xFFFFFFFF#32 0x00080008#32 = true := by decide

theorem test_bltu_not_taken : goesTo 0x0020E463 0x00080000#32 0xFFFFFFFF#32 1#32 0x00080004#32 = true := by decide

theorem test_bgeu_taken : goesTo 0x8020F063 0x00081000#32 0xFFFFFFFF#32 1#32 0x00080000#32 = true := by decide

theorem test_bgeu_equal : goesTo 0x0020F463 0x00080000#32 4#32 4#32 0x00080008#32 = true := by decide

/-- Not taken, the target does not matter. -/
theorem test_beq :
    goesTo 0x80208063 0x00081000#32 0#32 0#32 0x00080000#32 = true ∧
      goesTo 0x00208363 0x00080000#32 1#32 2#32 0x00080004#32 = true := by decide

theorem test_beq_misaligned :
    stops (small 0x00080000#32 0#32 0#32 0#32) 0x7E208FE3 (.misalignedFetch 0x00080FFE#32) = true := by decide

/-! ### CSRW (section 2.9) -/

/-- `status` ends the run; `stats_en` keeps all 32 bits and does not. -/
theorem test_csrw_completes :
    runs (writeReg (small 0x00080000#32 0#32 0#32 0#32) 10#5 1#32) 0x01551073
      (fun t => t.status == 1#32 && t.pc == 0x00080004#32 && t.run == .ended 1#32 && t.statsEn == 0#32) = true ∧
    runs (small 0x00080000#32 0#32 0#32 0xDEADBEEF#32) 0x00A29073
      (fun t => t.statsEn == 0xDEADBEEF#32 && t.pc == 0x00080004#32 && t.run == .running && t.status == 0#32) = true := by
  decide

/-- Another number, and a field rd that is not zero, stop. -/
theorem test_csrw_stops :
    stops (small 0x00080000#32 0#32 0#32 0#32) 0x30001073 (.unsupportedCsr 0x300#12) = true ∧
      stops (small 0x00080000#32 0#32 0#32 0#32) 0x015510F3 (.unsupportedCsrForm 1#5) = true := by decide

/-! ### The whole machine (section 3: the faulting programs, their last step) -/

/-- F5: a program that falls off the end of valid memory. -/
theorem test_fetch_outside :
    faultIs (step { State.resetWith (Vector.replicate 31 0#32) 0#32 0#32 [⟨0x00080000, 4⟩] [] with pc := 0x00080004#32 })
      (.fetchAccess 0x00080004#32) = true := by decide

/-- F6: a word stored to is not executed. -/
theorem test_fetch_after_store :
    faultIs (step { State.reset with pc := 0x00080008#32, stored := [0x0008000B] }) (.fetchAfterStore 0x00080008#32) = true := by
  decide

/-- After the write to `status` there is no step (R266). -/
theorem test_run_ended :
    (match step { State.reset with run := .ended 1#32 } with
      | .refused (.runEnded v) => v == 1#32
      | _ => false) = true := by decide

/-- Reset: pc 0x00080000 (R260). -/
theorem test_reset : State.reset.pc = 0x00080000#32 ∧ State.reset.run = .running ∧ State.reset.stored = [] := by decide

/-! ### Witnesses: for each obligation with hypotheses, values that meet them, one per clause -/

/-- A state in which a one-word program stands at the pc. -/
def placed (word : Nat) : State := (small 0x00080000#32 0x1000#32 0x80000000#32 0xFFFFFFFF#32).withFetchWord 32 word

/-- A state whose valid memory stops after three bytes at the pc. -/
def shortMap : State := State.resetWith (Vector.replicate 31 0#32) 0#32 0#32 [⟨0x00080000, 3⟩] []

theorem witness_DecodeOfEncode :
    (Instr.bgeu 1#5 2#5 (-4096)).wf = true ∧ (Instr.jal 31#5 0xFFFFE#21).wf = true ∧
      (Instr.sw 31#5 31#5 (-2048)).wf = true := by decide

theorem witness_EncodeOfDecode : decodeWord 0x8020F063#32 = .ok (.bgeu 1#5 2#5 (-4096)) := by decide

theorem witness_DecodesExactlyTheOpcodeMap :
    (∃ r ∈ opcodeRows, 0x4020D1B3#32 &&& r.mask = r.pattern) ∧
      (∀ r ∈ opcodeRows, 0x02001033#32 &&& r.mask ≠ r.pattern) := by decide

theorem witness_ImmediatesIAndSBitByBit : (0 : Nat) < 32 ∧ (10 : Nat) < 32 ∧ (11 : Nat) < 32 ∧ (31 : Nat) < 32 := by decide

theorem witness_StepRunsTheDecodedInstruction :
    (placed 0x0020A423).run = .running ∧ (placed 0x0020A423).pc.toNat % 4 = 0 ∧
      (∀ k, k < 4 → memValid (placed 0x0020A423) ((placed 0x0020A423).pc + BitVec.ofNat 32 k) = true) ∧
      (∀ k, k < 4 → ((placed 0x0020A423).pc + BitVec.ofNat 32 k).toNat ∉ (placed 0x0020A423).stored) ∧
      decode [(placed 0x0020A423).mem.read (placed 0x0020A423).pc, (placed 0x0020A423).mem.read ((placed 0x0020A423).pc + 1#32),
        (placed 0x0020A423).mem.read ((placed 0x0020A423).pc + 2#32), (placed 0x0020A423).mem.read ((placed 0x0020A423).pc + 3#32)]
        = .ok (.sw 2#5 1#5 8#12, []) := by decide

theorem witness_FetchStopsInOrder_misaligned :
    (small 0x00080002#32 0#32 0#32 0#32).run = .running ∧ (small 0x00080002#32 0#32 0#32 0#32).pc.toNat % 4 ≠ 0 := by decide

theorem witness_FetchStopsInOrder_outside :
    shortMap.run = .running ∧ shortMap.pc.toNat % 4 = 0 ∧ ∃ k, k < 4 ∧ memValid shortMap (shortMap.pc + BitVec.ofNat 32 k) = false :=
  ⟨by decide, by decide, 3, by decide, by decide⟩

theorem witness_FetchStopsInOrder_stored :
    let s : State := { State.reset with stored := [0x00080003] }
    s.run = .running ∧ s.pc.toNat % 4 = 0 ∧ (∀ k, k < 4 → memValid s (s.pc + BitVec.ofNat 32 k) = true) ∧
      ∃ k, k < 4 ∧ (s.pc + BitVec.ofNat 32 k).toNat ∈ s.stored :=
  ⟨by decide, by decide, by decide, 3, by decide, by decide⟩

theorem witness_IllegalWordFaults :
    (placed 0x00000073).run = .running ∧ fetch (placed 0x00000073) (placed 0x00000073).pc = .ok 0x00000073#32 ∧
      ∀ r ∈ opcodeRows, 0x00000073#32 &&& r.mask ≠ r.pattern := by decide

theorem witness_EndedRunHasNoStep : ({ State.reset with run := .ended 7#32 } : State).run = .ended 7#32 := by decide

theorem witness_PlacedWordRunsNext :
    State.reset.pc.toNat % 4 = 0 ∧ decodeTableWord 32 0xFF9FF06F = some (.jal 0#5 (-8)) := by decide

theorem witness_ResetLeaves : (0 : Nat) < 31 ∧ (30 : Nat) < 31 := by decide

theorem witness_InvariantAtReset : Memory.wf dataBytes = true ∧ Memory.wf [(0xFFFFFFFF, 0x01#8)] = true := by decide

/-- A store and the end of a run. -/
theorem witness_InvariantKeptByStep :
    (inv (placed 0x0020A223) = true ∧ ∃ t, step (placed 0x0020A223) = .next t) ∧
      inv (placed 0x01529073) = true ∧ ∃ t, step (placed 0x01529073) = .next t :=
  ⟨⟨by decide, exists_next (by decide)⟩, by decide, exists_next (by decide)⟩

theorem witness_FetchedCodeIsTheImage :
    SeesImage (placed 0x0020A223).mem (placed 0x0020A223) ∧
      fetch (placed 0x0020A223) (placed 0x0020A223).pc = .ok 0x0020A223#32 ∧ ∃ t, step (placed 0x0020A223) = .next t :=
  ⟨fun _ _ => rfl, by decide, exists_next (by decide)⟩

theorem witness_StepKeepsMapModeAndStored :
    0x1000 ∈ ({ placed 0x0020A223 with stored := [0x1000] } : State).stored ∧
      ∃ t, step { placed 0x0020A223 with stored := [0x1000] } = .next t :=
  ⟨by decide, exists_next (by decide)⟩

/-- One fault for every cause. -/
theorem witness_FaultsHaveTheirCauses :
    (∃ f, exec (.lh 3#5 1#5 1#12) (placed 0) = .fault f) ∧ (∃ f, exec (.lb 3#5 1#5 8#12) (placed 0) = .fault f) ∧
      (∃ f, exec (.sw 3#5 1#5 2#12) (placed 0) = .fault f) ∧ (∃ f, exec (.sb 3#5 1#5 (-1)) (placed 0) = .fault f) ∧
      (∃ f, exec (.jal 3#5 2#21) (placed 0) = .fault f) ∧ (∃ f, exec (.bge 0#5 0#5 2#13) (placed 0) = .fault f) ∧
      (∃ f, exec (.csrw 0x300#12 0#5 1#5) (placed 0) = .fault f) ∧ (∃ f, exec (.csrw 0x300#12 0#5 0#5) (placed 0) = .fault f) :=
  ⟨⟨.misalignedLoad 0x1001#32 2, eq_fault (by decide)⟩, ⟨.loadAccess 0x1008#32 1, eq_fault (by decide)⟩,
    ⟨.misalignedStore 0x1002#32 4, eq_fault (by decide)⟩, ⟨.storeAccess 0x0FFF#32 1, eq_fault (by decide)⟩,
    ⟨.misalignedFetch 0x00080002#32, eq_fault (by decide)⟩, ⟨.misalignedFetch 0x00080002#32, eq_fault (by decide)⟩,
    ⟨.unsupportedCsrForm 1#5, eq_fault (by decide)⟩, ⟨.unsupportedCsr 0x300#12, eq_fault (by decide)⟩⟩

/-- At the top of the address space. -/
theorem witness_PcAdvancesByFour :
    (∃ t, exec (.add 3#5 1#5 2#5) (small 0xFFFFFFFC#32 1#32 2#32 0#32) = .next t) ∧
      ∀ p, kindOf (small 0xFFFFFFFC#32 1#32 2#32 0#32) (.add 3#5 1#5 2#5) ≠ .jump p ∧
        kindOf (small 0xFFFFFFFC#32 1#32 2#32 0#32) (.add 3#5 1#5 2#5) ≠ .branch p :=
  ⟨exists_next (by decide), fun _ => ⟨by simp [kindOf], by simp [kindOf]⟩⟩

theorem witness_OnlyTheDestinationIsWritten :
    (∃ t, exec (.lw 3#5 1#5 4#12) (placed 0) = .next t) ∧ ∃ t, exec (.jal 0#5 8#21) (placed 0) = .next t :=
  ⟨exists_next (by decide), exists_next (by decide)⟩

theorem witness_OnlyStoresWriteMemory :
    (∃ t, exec (.lw 3#5 1#5 4#12) (placed 0) = .next t) ∧
      ∀ a w, kindOf (placed 0) (.lw 3#5 1#5 4#12) ≠ .store a w :=
  ⟨exists_next (by decide), fun _ _ => by simp [kindOf]⟩

theorem witness_OnlyCsrwWritesCsrs :
    (∃ t, exec (.sw 2#5 1#5 4#12) (placed 0) = .next t) ∧ ∀ n rd, kindOf (placed 0) (.sw 2#5 1#5 4#12) ≠ .csr n rd :=
  ⟨exists_next (by decide), fun _ _ => by simp [kindOf]⟩

/-- A step that ends the run and one that does not. -/
theorem witness_RunEndsOnlyByStatus :
    (∃ t, step (placed 0x01529073) = .next t ∧ (t.run == .ended 0xFFFFFFFF#32) = true) ∧
      ∃ t, step (placed 0x00A29073) = .next t ∧ (t.run == .running) = true :=
  ⟨exists_nextThat (p := fun t => t.run == .ended 0xFFFFFFFF#32) (by decide),
    exists_nextThat (p := fun t => t.run == .running) (by decide)⟩

theorem witness_LogicByRegister :
    0x0020F1B3#32 &&& 0xFE00707F#32 = 0x00007033#32 ∧ 0x0020E1B3#32 &&& 0xFE00707F#32 = 0x00006033#32 ∧
      0x0020C1B3#32 &&& 0xFE00707F#32 = 0x00004033#32 := by decide

theorem witness_LogicByImmediate :
    0x0F00F193#32 &&& 0x0000707F#32 = 0x00007013#32 ∧ 0xF000E193#32 &&& 0x0000707F#32 = 0x00006013#32 ∧
      0xFFF0C193#32 &&& 0x0000707F#32 = 0x00004013#32 := by decide

theorem witness_ShiftsByRegister :
    0x4020D1B3#32 &&& 0xFE00707F#32 = 0x40005033#32 ∧ 0x0020D1B3#32 &&& 0xFE00707F#32 = 0x00005033#32 ∧
      0x002091B3#32 &&& 0xFE00707F#32 = 0x00001033#32 := by decide

theorem witness_ShiftsByConstant :
    0x41F0D193#32 &&& 0xFE00707F#32 = 0x40005013#32 ∧ 0x01F0D193#32 &&& 0xFE00707F#32 = 0x00005013#32 ∧
      0x01F09193#32 &&& 0xFE00707F#32 = 0x00001013#32 := by decide

theorem witness_LuiResult : 0xFFFFF1B7#32 &&& 0x0000007F#32 = 0x00000037#32 := by decide

/-- Beside the corners: -2^31 by 1, and -2^31 + 1 by -1. -/
theorem witness_DivRemLaw :
    (readReg (small 0#32 0x80000000#32 1#32 0#32) 2#5 ≠ 0#32 ∧
      ¬(readReg (small 0#32 0x80000000#32 1#32 0#32) 1#5 = 0x80000000#32 ∧
        readReg (small 0#32 0x80000000#32 1#32 0#32) 2#5 = 0xFFFFFFFF#32)) ∧
      readReg (small 0#32 0x80000001#32 0xFFFFFFFF#32 0#32) 2#5 ≠ 0#32 ∧
      ¬(readReg (small 0#32 0x80000001#32 0xFFFFFFFF#32 0#32) 1#5 = 0x80000000#32 ∧
        readReg (small 0#32 0x80000001#32 0xFFFFFFFF#32 0#32) 2#5 = 0xFFFFFFFF#32) := by decide

theorem witness_DivuRemuLaw : readReg (small 0#32 0x80000000#32 0xFFFFFFFF#32 0#32) 2#5 ≠ 0#32 := by decide

theorem witness_DivisionCorners_zero : readReg (small 0#32 0x80000000#32 0#32 0#32) 2#5 = 0#32 := by decide

theorem witness_DivisionCorners_overflow :
    readReg (placed 0) 2#5 = 0x80000000#32 ∧ readReg (placed 0) 5#5 = 0xFFFFFFFF#32 := by decide

/-- The last aligned address of the valid memory, for each width. -/
theorem witness_LoadsComplete :
    ((loadAddress (placed 0) 1#5 4#12).toNat % 4 = 0 ∧
      ∀ k, k < 4 → memValid (placed 0) (loadAddress (placed 0) 1#5 4#12 + BitVec.ofNat 32 k) = true) ∧
      ((loadAddress (placed 0) 1#5 6#12).toNat % 2 = 0 ∧
        ∀ k, k < 2 → memValid (placed 0) (loadAddress (placed 0) 1#5 6#12 + BitVec.ofNat 32 k) = true) ∧
      memValid (placed 0) (loadAddress (placed 0) 1#5 7#12) = true := by decide

theorem witness_LoadsFault_misaligned :
    (loadAddress (placed 0) 1#5 2#12).toNat % 4 ≠ 0 ∧ (loadAddress (placed 0) 1#5 1#12).toNat % 2 ≠ 0 := by decide

/-- The first address outside the valid memory, for each width. -/
theorem witness_LoadsFault_outside :
    ((loadAddress (placed 0) 1#5 8#12).toNat % 4 = 0 ∧
      ∃ k, k < 4 ∧ memValid (placed 0) (loadAddress (placed 0) 1#5 8#12 + BitVec.ofNat 32 k) = false) ∧
      ((loadAddress (placed 0) 1#5 8#12).toNat % 2 = 0 ∧
        ∃ k, k < 2 ∧ memValid (placed 0) (loadAddress (placed 0) 1#5 8#12 + BitVec.ofNat 32 k) = false) ∧
      memValid (placed 0) (loadAddress (placed 0) 1#5 8#12) = false :=
  ⟨⟨by decide, 0, by decide, by decide⟩, ⟨by decide, 0, by decide, by decide⟩, by decide⟩

theorem witness_StoresComplete :
    ((storeAddress (placed 0) 1#5 4#12).toNat % 4 = 0 ∧
      ∀ k, k < 4 → memValid (placed 0) (storeAddress (placed 0) 1#5 4#12 + BitVec.ofNat 32 k) = true) ∧
      ((storeAddress (placed 0) 1#5 6#12).toNat % 2 = 0 ∧
        ∀ k, k < 2 → memValid (placed 0) (storeAddress (placed 0) 1#5 6#12 + BitVec.ofNat 32 k) = true) ∧
      memValid (placed 0) (storeAddress (placed 0) 1#5 7#12) = true := by decide

theorem witness_StoresFault_misaligned :
    (storeAddress (placed 0) 1#5 2#12).toNat % 4 ≠ 0 ∧ (storeAddress (placed 0) 1#5 1#12).toNat % 2 ≠ 0 := by decide

theorem witness_StoresFault_outside :
    ((storeAddress (placed 0) 1#5 (-4)).toNat % 4 = 0 ∧
      ∃ k, k < 4 ∧ memValid (placed 0) (storeAddress (placed 0) 1#5 (-4) + BitVec.ofNat 32 k) = false) ∧
      ((storeAddress (placed 0) 1#5 (-2)).toNat % 2 = 0 ∧
        ∃ k, k < 2 ∧ memValid (placed 0) (storeAddress (placed 0) 1#5 (-2) + BitVec.ofNat 32 k) = false) ∧
      memValid (placed 0) (storeAddress (placed 0) 1#5 (-1)) = false :=
  ⟨⟨by decide, 0, by decide, by decide⟩, ⟨by decide, 0, by decide, by decide⟩, by decide⟩

theorem witness_LoadsSeeTheStoredWord : ∃ t, exec (.sw 2#5 1#5 4#12) (placed 0) = .next t := exists_next (by decide)

theorem witness_JumpsComplete :
    ((placed 0).pc + (4#21).signExtend 32).toNat % 4 = 0 ∧
      (readReg (placed 0) 1#5 + (5#12).signExtend 32).getLsbD 1 = false := by decide

theorem witness_JumpsFault :
    ((placed 0).pc + (2#21).signExtend 32).toNat % 4 ≠ 0 ∧
      (readReg (placed 0) 1#5 + (2#12).signExtend 32).getLsbD 1 = true := by decide

/-- x1 = 0x1000, x2 = -2^31 (unsigned 2^31), x5 = -1 (unsigned 2^32 - 1): every branch taken, and not taken, to the
largest aligned offset. -/
theorem witness_BranchesComplete :
    ((placed 0).pc + (4092#13).signExtend 32).toNat % 4 = 0 ∧
      (readReg (placed 0) 1#5 = readReg (placed 0) 1#5 ∧ ¬readReg (placed 0) 1#5 = readReg (placed 0) 2#5) ∧
      (readReg (placed 0) 1#5 ≠ readReg (placed 0) 2#5 ∧ ¬readReg (placed 0) 1#5 ≠ readReg (placed 0) 1#5) ∧
      ((readReg (placed 0) 2#5).toInt < (readReg (placed 0) 5#5).toInt ∧
        ¬(readReg (placed 0) 1#5).toInt < (readReg (placed 0) 1#5).toInt) ∧
      ((readReg (placed 0) 1#5).toInt ≤ (readReg (placed 0) 1#5).toInt ∧
        ¬(readReg (placed 0) 5#5).toInt ≤ (readReg (placed 0) 2#5).toInt) ∧
      ((readReg (placed 0) 1#5).toNat < (readReg (placed 0) 2#5).toNat ∧
        ¬(readReg (placed 0) 1#5).toNat < (readReg (placed 0) 1#5).toNat) ∧
      ((readReg (placed 0) 1#5).toNat ≤ (readReg (placed 0) 1#5).toNat ∧
        ¬(readReg (placed 0) 2#5).toNat ≤ (readReg (placed 0) 1#5).toNat) := by decide

theorem witness_BranchesFault :
    ((placed 0).pc + (4094#13).signExtend 32).toNat % 4 ≠ 0 ∧
      (readReg (placed 0) 1#5 = readReg (placed 0) 1#5) ∧ (readReg (placed 0) 1#5 ≠ readReg (placed 0) 2#5) ∧
      (readReg (placed 0) 2#5).toInt < (readReg (placed 0) 1#5).toInt ∧
      (readReg (placed 0) 1#5).toInt ≤ (readReg (placed 0) 1#5).toInt ∧
      (readReg (placed 0) 1#5).toNat < (readReg (placed 0) 2#5).toNat ∧
      (readReg (placed 0) 1#5).toNat ≤ (readReg (placed 0) 1#5).toNat := by decide

theorem witness_CsrwFaults :
    (31#5 ≠ 0#5) ∧ (0#5 = 0#5 ∧ (0x014#12 ≠ 0x015#12 ∧ 0x014#12 ≠ 0x00A#12)) ∧ (0x00B#12 ≠ 0x015#12 ∧ 0x00B#12 ≠ 0x00A#12) := by
  decide

theorem witness_NotNegAndZeroBranches :
    ((placed 0).pc + (8#13).signExtend 32).toNat % 4 = 0 ∧ (readReg (placed 0) 0#5).toInt = 0 ∧
      (readReg (placed 0) 1#5).toInt ≠ 0 ∧ 0 < (readReg (placed 0) 1#5).toInt ∧ (readReg (placed 0) 5#5).toInt < 0 := by decide

end Sys2Proof.Tests
end

section
/-! SUPPORT. The four sign-extended immediates of a word: their bits, their evenness and their ranges
(30_encoding.md rules R66, R67, R68, R70). -/

namespace Sys2Proof.Machine

/-! ### Sign extension of an immediate field -/

section
variable {n : Nat} (imm : BitVec n)

/-- Sign extension repeats the top bit: from bit `n - 1` on, every bit is bit `n - 1` of the field. -/
theorem getLsbD_signExtend_eq_min {v k : Nat} (hk : k < v) :
    (imm.signExtend v).getLsbD k = imm.getLsbD (min k (n - 1)) := by
  rw [BitVec.getLsbD_signExtend, decide_eq_true hk, Bool.true_and]
  split
  · rw [min_eq_left (by omega)]
  · rw [min_eq_right (by omega), BitVec.msb_eq_getLsbD_last]

theorem le_toInt_signExtend {v : Nat} (hn : n ≤ v) : -2 ^ (n - 1) ≤ (imm.signExtend v).toInt := by
  rw [BitVec.toInt_signExtend_of_le hn]
  exact BitVec.le_toInt imm

theorem toInt_signExtend_lt {v : Nat} (hn : n ≤ v) : (imm.signExtend v).toInt < 2 ^ (n - 1) := by
  rw [BitVec.toInt_signExtend_of_le hn]
  exact BitVec.toInt_lt

theorem toNat_signExtend_mod_two (h : immEven imm = true) : (imm.signExtend 32).toNat % 2 = 0 := by
  have hbit : (imm.signExtend 32).getLsbD 0 = false := by
    rw [getLsbD_signExtend_eq_min imm (by decide), Nat.zero_min]
    simpa [immEven] using h
  simpa [BitVec.getLsbD, Nat.testBit_zero] using hbit

end

/-- A word read as signed differs from its unsigned reading by a multiple of 2^32, so it has the same parity. -/
theorem toInt_mod_two_of_toNat_mod_two {v : Word} (h : v.toNat % 2 = 0) : v.toInt % 2 = 0 := by
  rw [BitVec.toInt_eq_toNat_cond]
  split <;> omega

/-! ### The bits of an immediate field -/

section
variable (w : Word) {i : Nat}

theorem getLsbD_fieldImmI (hi : i < 12) : (fieldImmI w).getLsbD i = w.getLsbD (i + 20) := by
  simp [fieldImmI, hi, Nat.add_comm]

theorem getLsbD_fieldImmS (hi : i < 12) :
    (fieldImmS w).getLsbD i = w.getLsbD (if 5 ≤ i then i + 20 else i + 7) := by
  simp only [fieldImmS, BitVec.getLsbD_append, BitVec.getLsbD_extractLsb']
  grind

theorem getLsbD_fieldImmB (hi : i < 13) :
    (fieldImmB w).getLsbD i =
      if 12 ≤ i then w.getLsbD 31 else if i = 11 then w.getLsbD 7 else if 5 ≤ i then w.getLsbD (i + 20)
      else if 1 ≤ i then w.getLsbD (i + 7) else false := by
  simp only [fieldImmB, BitVec.getLsbD_append, BitVec.getLsbD_extractLsb']
  grind

theorem getLsbD_fieldImmJ (hi : i < 21) :
    (fieldImmJ w).getLsbD i =
      if 20 ≤ i then w.getLsbD 31 else if 12 ≤ i then w.getLsbD i else if i = 11 then w.getLsbD 20
      else if 1 ≤ i then w.getLsbD (i + 20) else false := by
  simp only [fieldImmJ, BitVec.getLsbD_append, BitVec.getLsbD_extractLsb']
  grind

@[simp] theorem immEven_fieldImmB : immEven (fieldImmB w) = true := by
  rw [immEven, getLsbD_fieldImmB w (by decide)]
  rfl

@[simp] theorem immEven_fieldImmJ : immEven (fieldImmJ w) = true := by
  rw [immEven, getLsbD_fieldImmJ w (by decide)]
  rfl

end

/-! ### The bits of a 32-bit immediate -/

section
variable (w : Word) {k : Nat} (hk : k < 32)
include hk

theorem getLsbD_immI_fieldImmI :
    (immI (fieldImmI w)).getLsbD k = w.getLsbD (if 11 ≤ k then 31 else k + 20) := by
  rw [immI, getLsbD_signExtend_eq_min _ hk, getLsbD_fieldImmI w (by omega)]
  rcases le_or_gt 11 k with h | h
  · simp [h]
  · simp [h.le, h.not_ge]

theorem getLsbD_immS_fieldImmS :
    (immS (fieldImmS w)).getLsbD k = w.getLsbD (if 11 ≤ k then 31 else if 5 ≤ k then k + 20 else k + 7) := by
  rw [immS, getLsbD_signExtend_eq_min _ hk, getLsbD_fieldImmS w (by omega)]
  rcases le_or_gt 11 k with h | h
  · simp [h]
  · simp [h.le, h.not_ge]

theorem getLsbD_immB_fieldImmB :
    (immB (fieldImmB w)).getLsbD k =
      if 12 ≤ k then w.getLsbD 31 else if k = 11 then w.getLsbD 7 else if 5 ≤ k then w.getLsbD (k + 20)
      else if 1 ≤ k then w.getLsbD (k + 7) else false := by
  rw [immB, getLsbD_signExtend_eq_min _ hk, getLsbD_fieldImmB w (by omega)]
  rcases le_or_gt 12 k with h | h
  · simp [h]
  · simp [h.le]

theorem getLsbD_immJ_fieldImmJ :
    (immJ (fieldImmJ w)).getLsbD k =
      if 20 ≤ k then w.getLsbD 31 else if 12 ≤ k then w.getLsbD k else if k = 11 then w.getLsbD 20
      else if 1 ≤ k then w.getLsbD (k + 20) else false := by
  rw [immJ, getLsbD_signExtend_eq_min _ hk, getLsbD_fieldImmJ w (by omega)]
  rcases le_or_gt 20 k with h | h
  · simp [h]
  · simp [h.le]

end

/-! ### The range of a 32-bit immediate -/

theorem immI_toInt_range (imm : BitVec 12) : -2048 ≤ (immI imm).toInt ∧ (immI imm).toInt ≤ 2047 :=
  ⟨le_toInt_signExtend imm (by decide), Int.le_of_lt_add_one (toInt_signExtend_lt imm (by decide))⟩

theorem immS_toInt_range (imm : BitVec 12) : -2048 ≤ (immS imm).toInt ∧ (immS imm).toInt ≤ 2047 :=
  immI_toInt_range imm

/-- An even offset stops two short of the power of two, not one (R68). -/
theorem immB_toInt_range {imm : BitVec 13} (h : immEven imm = true) :
    -4096 ≤ (immB imm).toInt ∧ (immB imm).toInt ≤ 4094 := by
  have hlo : -4096 ≤ (immB imm).toInt := le_toInt_signExtend imm (by decide)
  have hhi : (immB imm).toInt < 4096 := toInt_signExtend_lt imm (by decide)
  have heven : (immB imm).toInt % 2 = 0 := toInt_mod_two_of_toNat_mod_two (toNat_signExtend_mod_two imm h)
  omega

/-- The same for the longer offset of JAL (R70). -/
theorem immJ_toInt_range {imm : BitVec 21} (h : immEven imm = true) :
    -1048576 ≤ (immJ imm).toInt ∧ (immJ imm).toInt ≤ 1048574 := by
  have hlo : -1048576 ≤ (immJ imm).toInt := le_toInt_signExtend imm (by decide)
  have hhi : (immJ imm).toInt < 1048576 := toInt_signExtend_lt imm (by decide)
  have heven : (immJ imm).toInt % 2 = 0 := toInt_mod_two_of_toNat_mod_two (toNat_signExtend_mod_two imm h)
  omega

end Sys2Proof.Machine
end

section
/-! The statements on the immediates (30_encoding.md rules R66, R67, R68, R70). -/

namespace Sys2Proof.Machine

/-- Settles O5: the bits of the two 12-bit fields, the top one repeated, and the range of a signed 12-bit number. -/
theorem immediatesIAndSBitByBit : Obligations.ImmediatesIAndSBitByBit := by
  intro w
  constructor
  · exact ⟨fun _ => getLsbD_immI_fieldImmI w, rfl, immI_toInt_range _⟩
  · exact ⟨fun _ => getLsbD_immS_fieldImmS w, rfl, immS_toInt_range _⟩

/-- Settles O6: the bits of the two offset fields, the top one repeated; both fields are even, which gives the parity
and, with the range of a signed number of that width, the upper bound. -/
theorem immediatesBAndJBitByBit : Obligations.ImmediatesBAndJBitByBit := by
  intro w
  constructor
  · obtain ⟨hlo, hhi⟩ := immB_toInt_range (immEven_fieldImmB w)
    exact ⟨fun _ => getLsbD_immB_fieldImmB w, rfl, toNat_signExtend_mod_two _ (immEven_fieldImmB w), hlo, hhi,
      fun _ => rfl⟩
  · exact ⟨fun _ => getLsbD_immJ_fieldImmJ w, rfl, toNat_signExtend_mod_two _ (immEven_fieldImmJ w),
      immJ_toInt_range (immEven_fieldImmJ w)⟩

end Sys2Proof.Machine
end

section
/-! SUPPORT. What the register-register words decode to, and the bits of a shifted word (30_encoding.md rule R75;
41_reg_reg_arith.md rules R113 to R115, R119 to R122). -/

namespace Sys2Proof.Machine

/-! ### Decoding an R word from its mask and pattern -/

/-- A word that matches an R row decodes to the row's instruction with the word's own register fields, when every encoding
with the row's funct7, funct3 and opcode decodes to that instruction. -/
theorem decodeWord_of_mask_R {w p : Word} {c : RegSpec → RegSpec → RegSpec → Instr}
    (f7 : BitVec 7) (f3 : BitVec 3) (op : BitVec 7)
    (hc : ∀ rd rs1 rs2, decodeWord (encodeR f7 rs2 rs1 f3 rd op) = .ok (c rd rs1 rs2))
    (hp : encodeR f7 0#5 0#5 f3 0#5 op = p) (h : w &&& 0xFE00707F#32 = p) :
    decodeWord w = .ok (c (fieldRd w) (fieldRs1 w) (fieldRs2 w)) := by
  obtain ⟨h7, h3, ho⟩ := (mask_R_iff w f7 f3 op).1 (h.trans hp.symm)
  have hw := encodeR_fields w
  rw [h7, h3, ho] at hw
  rw [← hc, hw]

section
variable (rd rs1 rs2 : RegSpec)

theorem decodeWord_encode_and : decodeWord (encode (.and rd rs1 rs2)) = .ok (.and rd rs1 rs2) := by
  simp [encode, decodeWord, decodeRegReg]

theorem decodeWord_encode_or : decodeWord (encode (.or rd rs1 rs2)) = .ok (.or rd rs1 rs2) := by
  simp [encode, decodeWord, decodeRegReg]

theorem decodeWord_encode_xor : decodeWord (encode (.xor rd rs1 rs2)) = .ok (.xor rd rs1 rs2) := by
  simp [encode, decodeWord, decodeRegReg]

theorem decodeWord_encode_sra : decodeWord (encode (.sra rd rs1 rs2)) = .ok (.sra rd rs1 rs2) := by
  simp [encode, decodeWord, decodeRegReg]

theorem decodeWord_encode_srl : decodeWord (encode (.srl rd rs1 rs2)) = .ok (.srl rd rs1 rs2) := by
  simp [encode, decodeWord, decodeRegReg]

theorem decodeWord_encode_sll : decodeWord (encode (.sll rd rs1 rs2)) = .ok (.sll rd rs1 rs2) := by
  simp [encode, decodeWord, decodeRegReg]

end

/-! ### Shifts, bit by bit -/

/-- The low five bits of a register value are its remainder by 32 (R119). -/
@[simp] theorem regAmount_eq (v : Word) : regAmount v = v.toNat % 32 := by
  simp [regAmount]

section
variable (a : Word) (n : Nat) {k : Nat} (hk : k < 32)

theorem getLsbD_shiftRightLogical :
    (shiftRightLogical a n).getLsbD k = if k + n < 32 then a.getLsbD (k + n) else false := by
  rw [shiftRightLogical, BitVec.getLsbD_ushiftRight, Nat.add_comm n k]
  split
  · rfl
  · exact BitVec.getLsbD_of_ge a _ (by omega)

include hk

theorem getLsbD_shiftRightArith :
    (shiftRightArith a n).getLsbD k = if k + n < 32 then a.getLsbD (k + n) else a.getLsbD 31 := by
  rw [shiftRightArith, BitVec.getLsbD_sshiftRight, BitVec.msb_eq_getLsbD_last, Nat.add_comm n k]
  simp [hk.not_ge]

theorem getLsbD_shiftLeft :
    (shiftLeft a n).getLsbD k = if n ≤ k then a.getLsbD (k - n) else false := by
  rw [shiftLeft, BitVec.getLsbD_shiftLeft]
  rcases le_or_gt n k with h | h
  · simp [hk, h, h.not_gt]
  · simp [h, h.not_ge]

end

end Sys2Proof.Machine
end

section
/-! The statements on the logical instructions and the shifts by a register (41_reg_reg_arith.md rules R113 to R115, R119
to R122). -/

namespace Sys2Proof.Machine

/-- Settles O27: the mask fixes funct7, funct3 and the opcode, which select the instruction; its meaning is `writeResult`
of the bitwise operation. -/
theorem logicByRegister : Obligations.LogicByRegister := by
  refine ⟨fun w => ⟨?_, ?_, ?_⟩, fun s rd rs1 rs2 => ⟨?_, ?_, ?_⟩⟩
  · exact decodeWord_of_mask_R 0b0000000#7 0b111#3 0b0110011#7 decodeWord_encode_and (by decide)
  · exact decodeWord_of_mask_R 0b0000000#7 0b110#3 0b0110011#7 decodeWord_encode_or (by decide)
  · exact decodeWord_of_mask_R 0b0000000#7 0b100#3 0b0110011#7 decodeWord_encode_xor (by decide)
  · exact writeResult_next s rd _
  · exact writeResult_next s rd _
  · exact writeResult_next s rd _

/-- Settles O30: decoding as for O27; the value written is the source shifted by the second register's remainder by 32,
and its bits are those of the three shifts. -/
theorem shiftsByRegister : Obligations.ShiftsByRegister := by
  refine ⟨fun w => ⟨?_, ?_, ?_⟩, fun s rd rs1 rs2 => ⟨?_, ?_, ?_⟩⟩
  · exact decodeWord_of_mask_R 0b0100000#7 0b101#3 0b0110011#7 decodeWord_encode_sra (by decide)
  · exact decodeWord_of_mask_R 0b0000000#7 0b101#3 0b0110011#7 decodeWord_encode_srl (by decide)
  · exact decodeWord_of_mask_R 0b0000000#7 0b001#3 0b0110011#7 decodeWord_encode_sll (by decide)
  · exact exists_value rfl fun k hk => by rw [regAmount_eq]; exact getLsbD_shiftRightArith _ _ hk
  · exact exists_value rfl fun k _ => by rw [regAmount_eq]; exact getLsbD_shiftRightLogical _ _
  · exact exists_value rfl fun k hk => by rw [regAmount_eq]; exact getLsbD_shiftLeft _ _ hk

end Sys2Proof.Machine
end

section
/-! SUPPORT. What the register-immediate words decode to, and the value of the U-immediate (30_encoding.md rules R69, R76,
R80; 42_reg_imm_arith.md rules R141 to R143, R146 to R149). -/

namespace Sys2Proof.Machine

/-! ### Decoding an I word from its mask and pattern -/

/-- A word that matches an I row decodes to the row's instruction with the word's own register and immediate fields, when
every encoding with the row's funct3 and opcode decodes to that instruction. -/
theorem decodeWord_of_mask_I {w p : Word} {c : RegSpec → RegSpec → BitVec 12 → Instr} (f3 : BitVec 3) (op : BitVec 7)
    (hc : ∀ rd rs1 imm, decodeWord (encodeI imm rs1 f3 rd op) = .ok (c rd rs1 imm))
    (hp : encodeR 0#7 0#5 0#5 f3 0#5 op = p) (h : w &&& 0x0000707F#32 = p) :
    decodeWord w = .ok (c (fieldRd w) (fieldRs1 w) (fieldImmI w)) := by
  obtain ⟨h3, ho⟩ := (mask_I_iff w f3 op).1 (h.trans hp.symm)
  have hw := encodeI_fields w
  rw [h3, ho] at hw
  rw [← hc, hw]

section
variable (rd rs1 : RegSpec) (imm : BitVec 12) (shamt : BitVec 5)

theorem decodeWord_encode_andi : decodeWord (encode (.andi rd rs1 imm)) = .ok (.andi rd rs1 imm) := by
  simp [encode, decodeWord, decodeRegImm]

theorem decodeWord_encode_ori : decodeWord (encode (.ori rd rs1 imm)) = .ok (.ori rd rs1 imm) := by
  simp [encode, decodeWord, decodeRegImm]

theorem decodeWord_encode_xori : decodeWord (encode (.xori rd rs1 imm)) = .ok (.xori rd rs1 imm) := by
  simp [encode, decodeWord, decodeRegImm]

theorem decodeWord_encode_srai : decodeWord (encode (.srai rd rs1 shamt)) = .ok (.srai rd rs1 shamt) := by
  simp [encode, decodeWord, decodeRegImm, decodeShiftRightImm]

theorem decodeWord_encode_srli : decodeWord (encode (.srli rd rs1 shamt)) = .ok (.srli rd rs1 shamt) := by
  simp [encode, decodeWord, decodeRegImm, decodeShiftRightImm]

theorem decodeWord_encode_slli : decodeWord (encode (.slli rd rs1 shamt)) = .ok (.slli rd rs1 shamt) := by
  simp [encode, decodeWord, decodeRegImm, decodeShiftLeftImm]

end

/-! ### The upper immediate -/

/-- The opcode alone selects LUI (R80). -/
theorem decodeWord_of_opcode_lui {w : Word} (h : fieldOpcode w = 0b0110111#7) :
    decodeWord w = .ok (.lui (fieldRd w) (fieldImmU w)) := by
  simp [decodeWord, h]

section
variable (imm : BitVec 20)

/-- The field stands twelve bits up, once: no further shift (R69, C2). -/
theorem toNat_immU : (immU imm).toNat = imm.toNat * 2 ^ 12 := by
  rw [immU, BitVec.toNat_append, Nat.shiftLeft_eq]
  exact Nat.or_zero _

theorem extractLsb'_immU_high : (immU imm).extractLsb' 12 20 = imm :=
  BitVec.extractLsb'_append_eq_left

theorem extractLsb'_immU_low : (immU imm).extractLsb' 0 12 = 0#12 :=
  BitVec.extractLsb'_append_eq_right

end

end Sys2Proof.Machine
end

section
/-! The statements on the logical instructions by an immediate, the shifts by a constant and LUI (42_reg_imm_arith.md rules
R141 to R143, R146 to R149). -/

namespace Sys2Proof.Machine

/-- Settles O28: the mask fixes funct3 and the opcode, which select the instruction; its meaning is `writeResult` of the
bitwise operation with the sign-extended field. -/
theorem logicByImmediate : Obligations.LogicByImmediate := by
  refine ⟨fun w => ⟨?_, ?_, ?_⟩, fun s rd rs1 imm => ⟨?_, ?_, ?_⟩⟩
  · exact decodeWord_of_mask_I 0b111#3 0b0010011#7 decodeWord_encode_andi (by decide)
  · exact decodeWord_of_mask_I 0b110#3 0b0010011#7 decodeWord_encode_ori (by decide)
  · exact decodeWord_of_mask_I 0b100#3 0b0010011#7 decodeWord_encode_xori (by decide)
  · exact writeResult_next s rd _
  · exact writeResult_next s rd _
  · exact writeResult_next s rd _

/-- Settles O31: these words have the R layout, with the amount in the place of `rs2`; the value written is the source
shifted by that field, and its bits are those of the three shifts. -/
theorem shiftsByConstant : Obligations.ShiftsByConstant := by
  refine ⟨fun w => ⟨?_, ?_, ?_⟩, fun s rd rs1 shamt => ⟨?_, ?_, ?_⟩⟩
  · exact decodeWord_of_mask_R 0b0100000#7 0b101#3 0b0010011#7 decodeWord_encode_srai (by decide)
  · exact decodeWord_of_mask_R 0b0000000#7 0b101#3 0b0010011#7 decodeWord_encode_srli (by decide)
  · exact decodeWord_of_mask_R 0b0000000#7 0b001#3 0b0010011#7 decodeWord_encode_slli (by decide)
  · exact exists_value rfl fun _ => getLsbD_shiftRightArith _ _
  · exact exists_value rfl fun _ _ => getLsbD_shiftRightLogical _ _
  · exact exists_value rfl fun _ => getLsbD_shiftLeft _ _

/-- Settles O32: the mask fixes the opcode, which selects LUI; the value written is the U-immediate. -/
theorem luiResult : Obligations.LuiResult := by
  refine ⟨fun w h => ?_, fun s rd imm => ?_⟩
  · exact decodeWord_of_opcode_lui ((mask_U_iff w 0b0110111#7).1 (h.trans (by decide)))
  · exact exists_value rfl ⟨toNat_immU imm, extractLsb'_immU_high imm, extractLsb'_immU_low imm⟩

end Sys2Proof.Machine
end

section
/-! SUPPORT. ADDI with the immediate zero, which the pseudo-instructions `nop` and `mv` stand for
(42_reg_imm_arith.md rule R140; 46_pseudo_instructions.md rules R202, R203). -/

namespace Sys2Proof.Machine

@[simp] theorem immI_zero : immI 0#12 = 0#32 := by decide

/-- Adding the immediate zero leaves the source: ADDI writes it to `rd` as it is. -/
theorem exec_addi_zero (s : State) (rd rs1 : RegSpec) :
    exec (.addi rd rs1 0#12) s = writeResult s rd (readReg s rs1) := by
  calc exec (.addi rd rs1 0#12) s
    _ = writeResult s rd (readReg s rs1 + immI 0#12) := rfl
    _ = writeResult s rd (readReg s rs1) := by rw [immI_zero, BitVec.add_zero]

/-- A result written to x0 is discarded: the state differs in the pc alone (R11). -/
theorem writeResult_x0 (s : State) (v : Word) : writeResult s 0#5 v = .next (setPc s (s.pc + 4#32)) := by
  rw [writeResult_eq, writeReg_x0]

end Sys2Proof.Machine
end

section
/-! The statement on the pseudo-instructions `nop` and `mv` (46_pseudo_instructions.md rules R202, R203). -/

namespace Sys2Proof.Machine

/-- Settles O50: both words decode by evaluation; ADDI with the immediate zero writes its source to `rd`, and for `nop` that
write is discarded, since `rd` is x0. -/
theorem nopAndMv : Obligations.NopAndMv := by
  refine ⟨by decide, by decide, fun s => ?nop, fun s rd rs1 => ?mv⟩
  case nop => rw [exec_addi_zero, writeResult_x0, setPc]
  case mv => rw [exec_addi_zero]; exact writeResult_next s rd _

end Sys2Proof.Machine
end

section
/-! SUPPORT. The decoder and the encoder are inverse to each other: decoding an encoded instruction, and what any word
decodes to (30_encoding.md rules R62 to R84). -/

namespace Sys2Proof

/-! ### Decoding an encoded instruction -/

/-- The fixed fields of the encoded word select the instruction, and its operand fields are the operands; the immediates
of JAL and of the branches come back because they are even (R68, R70). -/
theorem decodeWord_encode {i : Instr} (h : i.wf = true) : decodeWord (encode i) = .ok i := by
  cases i with
  | csrw => simp [encode, decodeWord, decodeSystem]
  | add | sub | and | or | xor | slt | sltu | sra | srl | sll | mul | div | divu | rem | remu =>
    simp [encode, decodeWord, decodeRegReg]
  | addi | andi | ori | xori | slti | sltiu => simp [encode, decodeWord, decodeRegImm]
  | srai | srli => simp [encode, decodeWord, decodeRegImm, decodeShiftRightImm]
  | slli => simp [encode, decodeWord, decodeRegImm, decodeShiftLeftImm]
  | lui | auipc => simp [encode, decodeWord]
  | lw | lh | lhu | lb | lbu => simp [encode, decodeWord, decodeLoad]
  | sw | sh | sb => simp [encode, decodeWord, decodeStore]
  | jal rd imm => simp [encode, decodeWord, fieldImmJ_encodeJ _ _ _ h]
  | jalr => simp [encode, decodeWord, decodeJalr]
  | beq rs1 rs2 imm | bne rs1 rs2 imm | blt rs1 rs2 imm | bge rs1 rs2 imm | bltu rs1 rs2 imm | bgeu rs1 rs2 imm =>
    simp [encode, decodeWord, decodeBranch, fieldImmB_encodeB _ _ _ _ _ h]

/-! ### What a word decodes to -/

/-- A decoder's answer says everything about its word: the word is the encoding of the instruction it answers, which is
well formed, or the answer names the word as illegal. -/
def ReadsWhole (w : Word) : Except DecodeError Instr → Prop
  | .ok i => i.wf = true ∧ encode i = w
  | .error e => e = .illegal w

section
variable {w : Word} {f7 : BitVec 7} {f3 : BitVec 3} {op : BitVec 7}

theorem encodeR_of_fields (h7 : fieldFunct7 w = f7) (h3 : fieldFunct3 w = f3) (ho : fieldOpcode w = op) :
    encodeR f7 (fieldRs2 w) (fieldRs1 w) f3 (fieldRd w) op = w := by
  subst h7 h3 ho; exact encodeR_fields w

theorem encodeI_of_fields (h3 : fieldFunct3 w = f3) (ho : fieldOpcode w = op) :
    encodeI (fieldImmI w) (fieldRs1 w) f3 (fieldRd w) op = w := by
  subst h3 ho; exact encodeI_fields w

theorem encodeS_of_fields (h3 : fieldFunct3 w = f3) (ho : fieldOpcode w = op) :
    encodeS (fieldImmS w) (fieldRs2 w) (fieldRs1 w) f3 op = w := by
  subst h3 ho; exact encodeS_fields w

theorem encodeB_of_fields (h3 : fieldFunct3 w = f3) (ho : fieldOpcode w = op) :
    encodeB (fieldImmB w) (fieldRs2 w) (fieldRs1 w) f3 op = w := by
  subst h3 ho; exact encodeB_fields w

theorem encodeU_of_fields (ho : fieldOpcode w = op) : encodeU (fieldImmU w) (fieldRd w) op = w := by
  subst ho; exact encodeU_fields w

theorem encodeJ_of_fields (ho : fieldOpcode w = op) : encodeJ (fieldImmJ w) (fieldRd w) op = w := by
  subst ho; exact encodeJ_fields w

end

section
variable {w : Word}

theorem readsWhole_decodeRegReg (ho : fieldOpcode w = 0b0110011#7) : ReadsWhole w (decodeRegReg w) := by
  unfold decodeRegReg
  split
  case h_16 => rfl
  all_goals exact ⟨rfl, encodeR_of_fields ‹_› ‹_› ho⟩

theorem readsWhole_decodeShiftRightImm (h3 : fieldFunct3 w = 0b101#3) (ho : fieldOpcode w = 0b0010011#7) :
    ReadsWhole w (decodeShiftRightImm w) := by
  unfold decodeShiftRightImm
  split
  case h_3 => rfl
  all_goals exact ⟨rfl, encodeR_of_fields ‹_› h3 ho⟩

theorem readsWhole_decodeShiftLeftImm (h3 : fieldFunct3 w = 0b001#3) (ho : fieldOpcode w = 0b0010011#7) :
    ReadsWhole w (decodeShiftLeftImm w) := by
  unfold decodeShiftLeftImm
  split
  · exact ⟨rfl, encodeR_of_fields ‹_› h3 ho⟩
  · rfl

theorem readsWhole_decodeRegImm (ho : fieldOpcode w = 0b0010011#7) : ReadsWhole w (decodeRegImm w) := by
  unfold decodeRegImm
  split
  case h_2 h3 => exact readsWhole_decodeShiftLeftImm h3 ho
  case h_6 h3 => exact readsWhole_decodeShiftRightImm h3 ho
  case h_9 => rfl
  all_goals exact ⟨rfl, encodeI_of_fields ‹_› ho⟩

theorem readsWhole_decodeLoad (ho : fieldOpcode w = 0b0000011#7) : ReadsWhole w (decodeLoad w) := by
  unfold decodeLoad
  split
  case h_6 => rfl
  all_goals exact ⟨rfl, encodeI_of_fields ‹_› ho⟩

theorem readsWhole_decodeStore (ho : fieldOpcode w = 0b0100011#7) : ReadsWhole w (decodeStore w) := by
  unfold decodeStore
  split
  case h_4 => rfl
  all_goals exact ⟨rfl, encodeS_of_fields ‹_› ho⟩

theorem readsWhole_decodeBranch (ho : fieldOpcode w = 0b1100011#7) : ReadsWhole w (decodeBranch w) := by
  unfold decodeBranch
  split
  case h_7 => rfl
  all_goals exact ⟨immEven_fieldImmB w, encodeB_of_fields ‹_› ho⟩

theorem readsWhole_decodeJalr (ho : fieldOpcode w = 0b1100111#7) : ReadsWhole w (decodeJalr w) := by
  unfold decodeJalr
  split
  · exact ⟨rfl, encodeI_of_fields ‹_› ho⟩
  · rfl

theorem readsWhole_decodeSystem (ho : fieldOpcode w = 0b1110011#7) : ReadsWhole w (decodeSystem w) := by
  unfold decodeSystem
  split
  · exact ⟨rfl, encodeI_of_fields ‹_› ho⟩
  · rfl

end

/-- The decoder drops no bit of a word (R60 to R84). -/
theorem readsWhole_decodeWord (w : Word) : ReadsWhole w (decodeWord w) := by
  unfold decodeWord
  split
  case h_1 ho => exact readsWhole_decodeRegReg ho
  case h_2 ho => exact readsWhole_decodeRegImm ho
  case h_3 ho => exact readsWhole_decodeLoad ho
  case h_4 ho => exact readsWhole_decodeStore ho
  case h_5 ho => exact readsWhole_decodeBranch ho
  case h_6 ho => exact ⟨immEven_fieldImmJ w, encodeJ_of_fields ho⟩
  case h_7 ho => exact readsWhole_decodeJalr ho
  case h_8 ho => exact ⟨rfl, encodeU_of_fields ho⟩
  case h_9 ho => exact ⟨rfl, encodeU_of_fields ho⟩
  case h_10 ho => exact readsWhole_decodeSystem ho
  case h_11 => rfl

theorem wf_and_encode_of_decodeWord {w : Word} {i : Instr} (h : decodeWord w = .ok i) : i.wf = true ∧ encode i = w := by
  have hw := readsWhole_decodeWord w
  rwa [h] at hw

theorem eq_illegal_of_decodeWord {w : Word} {e : DecodeError} (h : decodeWord w = .error e) : e = .illegal w := by
  have hw := readsWhole_decodeWord w
  rwa [h] at hw

end Sys2Proof
end

section
/-! SUPPORT. The rows of the opcode map and the decoder: a word matches a row exactly when it decodes to an instruction of
the row (30_encoding.md rules R74 to R84). -/

namespace Sys2Proof

section
variable {w p : Word}

/-- What the mask of the R rows keeps of a word. -/
theorem fields_of_mask_R (h : w &&& 0xFE00707F#32 = p) :
    fieldFunct7 w = fieldFunct7 p ∧ fieldFunct3 w = fieldFunct3 p ∧ fieldOpcode w = fieldOpcode p := by
  rw [(mask_R_iff w _ _ _).2 ⟨rfl, rfl, rfl⟩] at h
  simp [← h]

/-- What the mask of the I, S and B rows keeps of a word. -/
theorem fields_of_mask_I (h : w &&& 0x0000707F#32 = p) :
    fieldFunct3 w = fieldFunct3 p ∧ fieldOpcode w = fieldOpcode p := by
  rw [(mask_I_iff w _ _).2 ⟨rfl, rfl⟩] at h
  simp [← h]

/-- What the mask of the U and J rows keeps of a word. -/
theorem fields_of_mask_U (h : w &&& 0x0000007F#32 = p) : fieldOpcode w = fieldOpcode p := by
  rw [(mask_U_iff w _).2 rfl] at h
  simp [← h]

end

/-- A word that matches the row of some instruction decodes to an instruction of that row: the mask keeps the very fields
the decoder selects by. -/
theorem exists_decodeWord_of_row (i : Instr) {w : Word} (h : w &&& i.row.mask = i.row.pattern) :
    ∃ j, decodeWord w = .ok j ∧ j.row = i.row := by
  cases i with
  | add | sub | and | or | xor | slt | sltu | sra | srl | sll | mul | div | divu | rem | remu | srai | srli | slli =>
    have hf := fields_of_mask_R h
    simp only [Instr.row, fieldFunct7, fieldFunct3, fieldOpcode] at hf
    simp [decodeWord, decodeRegReg, decodeRegImm, decodeShiftRightImm, decodeShiftLeftImm, fieldFunct7, fieldFunct3,
      fieldOpcode, hf, Instr.row]
  | addi | andi | ori | xori | slti | sltiu | lw | lh | lhu | lb | lbu | sw | sh | sb | beq | bne | blt | bge | bltu | bgeu
  | csrw | jalr =>
    have hf := fields_of_mask_I h
    simp only [Instr.row, fieldFunct3, fieldOpcode] at hf
    simp [decodeWord, decodeRegImm, decodeLoad, decodeStore, decodeBranch, decodeSystem, decodeJalr, fieldFunct3,
      fieldOpcode, hf, Instr.row]
  | lui | auipc | jal =>
    have ho := fields_of_mask_U h
    simp only [Instr.row, fieldOpcode] at ho
    simp [decodeWord, fieldOpcode, ho, Instr.row]

/-- The pattern of every row, read as a word, decodes to an instruction of the row. -/
theorem decodeWord_pattern : ∀ r ∈ opcodeRows, (decodeWord r.pattern).map Instr.row = .ok r := by decide

theorem exists_row_eq {r : OpcodeRow} (hr : r ∈ opcodeRows) : ∃ i : Instr, i.row = r := by
  have h := decodeWord_pattern r hr
  cases hd : decodeWord r.pattern with
  | error e => rw [hd] at h; cases h
  | ok i => rw [hd] at h; exact ⟨i, Except.ok.inj h⟩

/-- The encoding of every instruction hits its row, which is one of the 43 (R74 to R83). -/
theorem encodesRow (i : Instr) : Laws.EncodesRow.Statement i := by
  cases i
  case csrw => exact Laws.EncodesRow.csrw _ _ _
  case add => exact Laws.EncodesRow.add _ _ _
  case sub => exact Laws.EncodesRow.sub _ _ _
  case and => exact Laws.EncodesRow.and _ _ _
  case or => exact Laws.EncodesRow.or _ _ _
  case xor => exact Laws.EncodesRow.xor _ _ _
  case slt => exact Laws.EncodesRow.slt _ _ _
  case sltu => exact Laws.EncodesRow.sltu _ _ _
  case sra => exact Laws.EncodesRow.sra _ _ _
  case srl => exact Laws.EncodesRow.srl _ _ _
  case sll => exact Laws.EncodesRow.sll _ _ _
  case mul => exact Laws.EncodesRow.mul _ _ _
  case div => exact Laws.EncodesRow.div _ _ _
  case divu => exact Laws.EncodesRow.divu _ _ _
  case rem => exact Laws.EncodesRow.rem _ _ _
  case remu => exact Laws.EncodesRow.remu _ _ _
  case addi => exact Laws.EncodesRow.addi _ _ _
  case andi => exact Laws.EncodesRow.andi _ _ _
  case ori => exact Laws.EncodesRow.ori _ _ _
  case xori => exact Laws.EncodesRow.xori _ _ _
  case slti => exact Laws.EncodesRow.slti _ _ _
  case sltiu => exact Laws.EncodesRow.sltiu _ _ _
  case srai => exact Laws.EncodesRow.srai _ _ _
  case srli => exact Laws.EncodesRow.srli _ _ _
  case slli => exact Laws.EncodesRow.slli _ _ _
  case lui => exact Laws.EncodesRow.lui _ _
  case auipc => exact Laws.EncodesRow.auipc _ _
  case lw => exact Laws.EncodesRow.lw _ _ _
  case sw => exact Laws.EncodesRow.sw _ _ _
  case lh => exact Laws.EncodesRow.lh _ _ _
  case lhu => exact Laws.EncodesRow.lhu _ _ _
  case lb => exact Laws.EncodesRow.lb _ _ _
  case lbu => exact Laws.EncodesRow.lbu _ _ _
  case sh => exact Laws.EncodesRow.sh _ _ _
  case sb => exact Laws.EncodesRow.sb _ _ _
  case jal => exact Laws.EncodesRow.jal _ _
  case jalr => exact Laws.EncodesRow.jalr _ _ _
  case beq => exact Laws.EncodesRow.beq _ _ _
  case bne => exact Laws.EncodesRow.bne _ _ _
  case blt => exact Laws.EncodesRow.blt _ _ _
  case bge => exact Laws.EncodesRow.bge _ _ _
  case bltu => exact Laws.EncodesRow.bltu _ _ _
  case bgeu => exact Laws.EncodesRow.bgeu _ _ _

/-- The word of an instruction matches its row, and the row stands in the opcode map (R74 to R83). -/
theorem row_of_decodeWord {w : Word} {i : Instr} (h : decodeWord w = .ok i) :
    w &&& i.row.mask = i.row.pattern ∧ i.row ∈ opcodeRows := by
  obtain ⟨-, rfl⟩ := wf_and_encode_of_decodeWord h
  obtain ⟨hhits, hmem⟩ := encodesRow i
  exact ⟨by simpa [OpcodeRow.hits] using hhits, hmem⟩

/-- A word matches a row of the map exactly when it decodes to an instruction of the row. -/
theorem matches_row_iff {w : Word} {r : OpcodeRow} (hr : r ∈ opcodeRows) :
    w &&& r.mask = r.pattern ↔ ∃ i, decodeWord w = .ok i ∧ i.row = r := by
  constructor
  · intro h
    obtain ⟨i, rfl⟩ := exists_row_eq hr
    exact exists_decodeWord_of_row i h
  · rintro ⟨i, hi, rfl⟩
    exact (row_of_decodeWord hi).1

/-- A word that matches no row is illegal (R84). -/
theorem decodeWord_of_matches_none {w : Word} (h : ∀ r ∈ opcodeRows, w &&& r.mask ≠ r.pattern) :
    decodeWord w = .error (.illegal w) := by
  cases hd : decodeWord w with
  | error e => rw [eq_illegal_of_decodeWord hd]
  | ok i =>
    obtain ⟨hmatch, hmem⟩ := row_of_decodeWord hd
    exact absurd hmatch (h _ hmem)

end Sys2Proof
end

section
/-! The statements on the decoder and the encoder (30_encoding.md). -/

namespace Sys2Proof

/-- Settles O1: by the instruction, each family read back field by field. -/
theorem decodeOfEncode : Obligations.DecodeOfEncode :=
  fun _ => decodeWord_encode

/-- Settles O2: the decoder reads its word whole, opcode by opcode. -/
theorem encodeOfDecode : Obligations.EncodeOfDecode :=
  fun _ _ => wf_and_encode_of_decodeWord

/-- Settles O3: the rows match as the decoder reads; two rows matched by one word are both the row of the one instruction it
decodes to. -/
theorem decodesExactlyTheOpcodeMap : Obligations.DecodesExactlyTheOpcodeMap := by
  refine ⟨fun w r hr => matches_row_iff hr, fun w r hr q hq hwr hwq => ?_, fun w => decodeWord_of_matches_none⟩
  obtain ⟨i, hi, rfl⟩ := (matches_row_iff hr).1 hwr
  obtain ⟨j, hj, rfl⟩ := (matches_row_iff hq).1 hwq
  rw [Except.ok.inj (hi.symm.trans hj)]

/-- Settles O4, by evaluation of the fifteen words. -/
theorem wordsOfTheSpecDecode : Obligations.WordsOfTheSpecDecode := by
  unfold Obligations.WordsOfTheSpecDecode
  decide

end Sys2Proof
end

section
/-! SUPPORT. Where a fetch and a step stop, and the word placed at the pc (20_memory.md rules R46, R47; 30_encoding.md rule
R84; 70_reset_and_hazards.md rules R263, R266, R267). -/

namespace Sys2Proof.Machine

/-! ### Where a fetch stops -/

section
variable {s : State} {a : Word}

theorem fetch_misaligned (h : aligned a .word = false) : fetch s a = .error (.misalignedFetch a) := by
  simp [fetch, h]

theorem fetch_invalid (h : aligned a .word = true) (hv : accessValid s a .word = false) :
    fetch s a = .error (.fetchAccess a) := by
  simp [fetch, h, hv]

theorem fetch_stored (h : aligned a .word = true) (hv : accessValid s a .word = true)
    (hs : anyStored s a .word = true) : fetch s a = .error (.fetchAfterStore a) := by
  simp [fetch, h, hv, hs]

end

/-- An access is aligned when its address is a multiple of the width (R33). -/
theorem aligned_iff (a : Word) (w : Width) : aligned a w = true ↔ a.toNat % w.bytes = 0 := by
  simp [aligned]

theorem aligned_eq_false_iff (a : Word) (w : Width) : aligned a w = false ↔ a.toNat % w.bytes ≠ 0 := by
  simp [aligned]

/-! ### Where a step stops -/

section
variable {s : State}

theorem step_of_ended {v : Word} (h : s.run = .ended v) : step s = .refused (.runEnded v) := by
  simp [step, nextInstr, h]

theorem step_of_fetch_error {f : Fault} (hr : s.run = .running) (hf : fetch s s.pc = .error f) : step s = .fault f := by
  simp [step, nextInstr, hr, hf]

theorem step_of_illegal {w : Word} {e : DecodeError} (hr : s.run = .running) (hf : fetch s s.pc = .ok w)
    (hd : decodeWord w = .error e) : step s = .fault (.illegalInstruction s.pc w) := by
  simp [step, nextInstr, hr, hf, hd]

end

/-- Four bytes decode as the word they make up, and none is left over (R46, R60). -/
theorem decode_four_eq_ok {b0 b1 b2 b3 : Byte} {i : Instr} :
    decode [b0, b1, b2, b3] = .ok (i, []) ↔ decodeWord (b3 ++ b2 ++ b1 ++ b0) = .ok i := by
  rw [decode]
  cases decodeWord (b3 ++ b2 ++ b1 ++ b0) <;> simp [Except.map]

/-! ### The word placed at the pc (log entry 9) -/

section
variable (s : State) (w : Word)

@[simp] theorem placeWord_pc : (placeWord s w).pc = s.pc := rfl
@[simp] theorem placeWord_mem : (placeWord s w).mem = writeLE s.mem s.pc .word w := rfl
@[simp] theorem placeWord_stored :
    (placeWord s w).stored = unmarkStored s.stored (accessBytes s.pc .word) := rfl
@[simp] theorem placeWord_run : (placeWord s w).run = .running := rfl

end

/-- The addresses of an access are not stored ones after they are taken out. -/
theorem not_mem_unmarkStored (l : List Nat) {as : List Word} {a : Word} (h : a ∈ as) :
    a.toNat ∉ unmarkStored l as := by
  simp only [unmarkStored, List.mem_filter, Bool.not_eq_true', List.any_eq_false, beq_iff_eq, not_and, not_forall]
  exact fun _ => ⟨a, h, not_not.mpr rfl⟩

theorem anyStored_placeWord (s : State) (w : Word) : anyStored (placeWord s w) s.pc .word = false := by
  rw [anyStored_eq_false_iff]
  intro k hk
  rw [placeWord_stored]
  exact not_mem_unmarkStored _ ((mem_accessBytes s.pc .word _).2 ⟨k, hk, rfl⟩)

/-- The four bytes from a multiple of 4 on do not wrap. -/
theorem toNat_add_ofNat_of_aligned {a : Word} {k : Nat} (ha : a.toNat % 4 = 0) (hk : k < 4) :
    (a + BitVec.ofNat 32 k).toNat = a.toNat + k := by
  have hlt := a.isLt
  rw [BitVec.toNat_add, BitVec.toNat_ofNat]
  omega

/-- A placed word stands in valid memory: where the map did not hold its bytes, a region for them is added. -/
theorem accessValid_placeWord {s : State} (w : Word) (ha : s.pc.toNat % 4 = 0) :
    accessValid (placeWord s w) s.pc .word = true := by
  by_cases hv : accessValid s s.pc .word = true
  · have hmap : (placeWord s w).memMap = s.memMap := if_pos hv
    simpa [accessValid, memValid, hmap] using hv
  · have hmap : (placeWord s w).memMap = ⟨s.pc.toNat, 4⟩ :: s.memMap := if_neg hv
    rw [accessValid_iff]
    intro k hk
    have hcovers : (Region.mk s.pc.toNat 4).covers (s.pc + BitVec.ofNat 32 k) = true := by
      have hk4 : k < 4 := hk
      simp only [Region.covers, toNat_add_ofNat_of_aligned ha hk4, Bool.and_eq_true, decide_eq_true_eq]
      omega
    simp [memValid, hmap, hcovers]

/-- A word placed at an aligned pc is what is fetched there. -/
theorem fetch_placeWord {s : State} (w : Word) (ha : s.pc.toNat % 4 = 0) :
    fetch (placeWord s w) (placeWord s w).pc = .ok w := by
  rw [placeWord_pc, fetch_ok ((aligned_iff _ _).2 ha) (accessValid_placeWord w ha) (anyStored_placeWord s w)]
  simp

end Sys2Proof.Machine
end

section
/-! The statements on the step, the fetch and the placed word (20_memory.md section 7; 30_encoding.md section 5;
70_reset_and_hazards.md). -/

namespace Sys2Proof.Machine

/-- Settles O7: the fetch succeeds and gives the four bytes as one word. -/
theorem stepRunsTheDecodedInstruction : Obligations.StepRunsTheDecodedInstruction := by
  intro s i hrun hpc hvalid hstored hdecode
  have hfetch : fetch s s.pc = .ok (readLE s.mem s.pc .word) :=
    fetch_ok ((aligned_iff _ _).2 hpc) ((accessValid_iff _ _ _).2 hvalid) ((anyStored_eq_false_iff _ _ _).2 hstored)
  exact step_of_nextInstr (nextInstr_of_fetch hrun hfetch (decode_four_eq_ok.1 hdecode))

/-- Settles O8: one clause per check of the fetch. -/
theorem fetchStopsInOrder : Obligations.FetchStopsInOrder := by
  intro s hrun
  refine ⟨fun hpc => ?misaligned, fun hpc hinvalid => ?invalid, fun hpc hvalid hstored => ?stored⟩
  case misaligned => exact step_of_fetch_error hrun (fetch_misaligned ((aligned_eq_false_iff _ _).2 hpc))
  case invalid =>
    exact step_of_fetch_error hrun
      (fetch_invalid ((aligned_iff _ _).2 hpc) ((accessValid_eq_false_iff _ _ _).2 hinvalid))
  case stored =>
    exact step_of_fetch_error hrun
      (fetch_stored ((aligned_iff _ _).2 hpc) ((accessValid_iff _ _ _).2 hvalid) ((anyStored_iff _ _ _).2 hstored))

/-- Settles O9: a word that matches no row does not decode. -/
theorem illegalWordFaults : Obligations.IllegalWordFaults :=
  fun _ _ hrun hfetch hnone => step_of_illegal hrun hfetch (decodeWord_of_matches_none hnone)

/-- Settles O10: the next instruction of an ended run is refused before any fetch. -/
theorem endedRunHasNoStep : Obligations.EndedRunHasNoStep :=
  fun _ _ => step_of_ended

/-- Settles O11: the placed word is fetched at the pc, and it is the word the table numbers. -/
theorem placedWordRunsNext : Obligations.PlacedWordRunsNext := by
  intro s n i hpc hdecode
  exact step_of_nextInstr
    (nextInstr_of_fetch (placeWord_run s _) (fetch_placeWord _ hpc) (decodeTableWord_eq_some.1 hdecode))

end Sys2Proof.Machine
end

section
/-! SUPPORT. The invariant of the machine and the image seen in memory (10_state.md; 20_memory.md rules R44, R47). -/

namespace Sys2Proof.Machine

/-- The four parts of the invariant. -/
theorem inv_iff (s : State) :
    inv s = true ↔
      targetAligned s.pc = true ∧ s.mem.wf = true ∧ storedWf s.stored = true ∧ endedWithStatus s = true := by
  simp [inv, and_assoc]

theorem endedWithStatus_of_running {s : State} (h : s.run = .running) : endedWithStatus s = true := by
  simp [endedWithStatus, h]

theorem endedWithStatus_writeStatus (s : State) (v p : Word) : endedWithStatus (setPc (writeStatus s v) p) = true := by
  simp [endedWithStatus]

/-- A register of the file, read by its specifier: xi stands at index i - 1 (R10). -/
theorem readReg_ofNat_succ (s : State) {k : Nat} (h : k < 31) : readReg s (BitVec.ofNat 5 (k + 1)) = s.x[k] := by
  have hn : (BitVec.ofNat 5 (k + 1)).toNat = k + 1 := by
    rw [BitVec.toNat_ofNat]; omega
  have h0 : BitVec.ofNat 5 (k + 1) ≠ 0#5 := fun e => by
    have := congrArg BitVec.toNat e
    rw [hn] at this; cases this
  simp [readReg, h0, hn]

/-- A little-endian value depends on the bytes of its access alone (R34). -/
theorem readLE_congr {m m' : Memory} {a : Word} {w : Width}
    (h : ∀ k, k < w.bytes → m.read (a + BitVec.ofNat 32 k) = m'.read (a + BitVec.ofNat 32 k)) :
    readLE m a w = readLE m' a w := by
  have h0 : m.read a = m'.read a := by simpa using h 0 (by cases w <;> decide)
  cases w with
  | byte => exact h0
  | half => simp only [readLE, h0, h 1 (by decide)]
  | word => simp only [readLE, h0, h 1 (by decide), h 2 (by decide), h 3 (by decide)]

section
variable {image : Memory} {s t : State} (h : SeesImage image s)
include h

/-- What a fetch gives is the word of the image: no byte of it was stored to (R46, R47). -/
theorem SeesImage.fetch_eq {a w : Word} (hf : fetch s a = .ok w) : w = readLE image a .word := by
  obtain ⟨-, -, hstored, rfl⟩ := fetch_eq_ok hf
  rw [anyStored_eq_false_iff] at hstored
  exact readLE_congr fun k hk => h _ (hstored k hk)

theorem SeesImage.of_sameMemory (ht : SameMemory s t) : SeesImage image t := by
  obtain ⟨hread, hstored⟩ := ht
  intro a ha
  rw [hread, h a (hstored ▸ ha)]

/-- A store changes the bytes it marks as stored, and no others (R35, R47). -/
theorem SeesImage.of_storeBytes (a : Word) (w : Width) (v : BitVec w.bits) : SeesImage image (storeBytes s a w v) := by
  intro b hb
  rw [storeBytes_stored, mem_markStored, not_or] at hb
  rw [storeBytes_mem, read_writeLE_other _ _ _ _ hb.2, h b hb.1]

end

/-- An address stored to stays one when more are marked (R47). -/
theorem mem_markStored_of_mem {l : List Nat} {a : Nat} (h : a ∈ l) (as : List Word) : a ∈ markStored l as := by
  induction as generalizing l with
  | nil => exact h
  | cons b as ih => exact ih ((mem_insertAddr _ _ _).2 (.inl h))

end Sys2Proof.Machine
end

section
/-! The statements on reset and on what every step keeps (10_state.md; 20_memory.md sections 6 and 7;
70_reset_and_hazards.md). -/

namespace Sys2Proof.Machine

/-- Settles O12: field by field, with the register file read by its specifiers. -/
theorem resetLeaves : Obligations.ResetLeaves :=
  fun _ _ _ _ _ => ⟨rfl, rfl, fun _ => readReg_ofNat_succ _, rfl, rfl, fun _ => rfl, rfl, rfl, rfl, rfl⟩

/-- Settles O13: the reset vector is a multiple of 4, nothing is stored to, the run goes on; the image is canonical by
hypothesis. -/
theorem invariantAtReset : Obligations.InvariantAtReset := by
  have hreset (x st se map) {image : Memory} (h : image.wf = true) : inv (State.resetWith x st se map image) = true :=
    (inv_iff _).2 ⟨(by decide : targetAligned Config.resetVector = true), h, rfl, rfl⟩
  exact ⟨fun x st se map _ => hreset x st se map, hreset _ _ _ _ rfl⟩

/-- Settles O14, by what a completed instruction can have done: it goes to pc + 4 or to an aligned target, writes memory and
the stored set by the operations that keep them canonical, and ends the run only with the value it puts into `status`. -/
theorem invariantKeptByStep : Obligations.InvariantKeptByStep := by
  intro s t hs h
  obtain ⟨i, -, hexec, hrun⟩ := step_next h
  obtain ⟨hpc, hmem, hstored, -⟩ := (inv_iff s).1 hs
  have hnext := targetAligned_add_four hpc
  rw [inv_iff]
  obtain ⟨v, p, rfl, hp⟩ | ⟨a, w, v, -, -, -, rfl⟩ | ⟨v, -, rfl⟩ | ⟨v, -, rfl⟩ := exec_next_cases hexec
  · have hp' : targetAligned p = true := by
      obtain rfl | ⟨hp, -⟩ := hp
      · exact hnext
      · exact hp
    exact ⟨hp', by simpa using hmem, by simpa using hstored, endedWithStatus_of_running (by simpa using hrun)⟩
  · exact ⟨hnext, wf_writeLE hmem a w v, storedWf_markStored hstored _, endedWithStatus_of_running hrun⟩
  · exact ⟨hnext, hmem, hstored, endedWithStatus_writeStatus s v _⟩
  · exact ⟨hnext, hmem, hstored, endedWithStatus_of_running hrun⟩

/-- Settles O15: memory is the image. -/
theorem imageSeenAtReset : Obligations.ImageSeenAtReset :=
  fun _ _ _ _ _ _ _ => rfl

/-- Settles O16: a fetch reads bytes not stored to, which read as the image; a step that is no store keeps memory and the
stored set, and a store marks what it changes. -/
theorem fetchedCodeIsTheImage : Obligations.FetchedCodeIsTheImage := by
  intro image s hs
  refine ⟨fun w => hs.fetch_eq, fun t h => ?_⟩
  obtain ⟨i, -, hexec, -⟩ := step_next h
  obtain ⟨v, p, rfl, -⟩ | ⟨a, w, v, -, -, -, rfl⟩ | ⟨v, -, rfl⟩ | ⟨v, -, rfl⟩ := exec_next_cases hexec
  · exact hs.of_sameMemory ⟨by simp, by simp⟩
  · exact hs.of_storeBytes a w v
  · exact hs
  · exact hs

/-- Settles O17: no completed instruction touches the map or the mode, and only a store the stored set, which it extends. -/
theorem stepKeepsMapModeAndStored : Obligations.StepKeepsMapModeAndStored := by
  intro s t h
  obtain ⟨i, -, hexec, -⟩ := step_next h
  obtain ⟨v, p, rfl, -⟩ | ⟨a, w, v, -, -, -, rfl⟩ | ⟨v, -, rfl⟩ | ⟨v, -, rfl⟩ := exec_next_cases hexec
  · simp
  · exact ⟨rfl, rfl, fun _ hb => mem_markStored_of_mem hb _⟩
  · exact ⟨rfl, rfl, fun _ hb => hb⟩
  · exact ⟨rfl, rfl, fun _ hb => hb⟩

end Sys2Proof.Machine
end

section
/-! SUPPORT. What the frame statements need beside the inversion of a completed instruction: the CSRW to `status`, and that
no instruction looks at a CSR (40_csr.md; 10_state.md section 4). -/

namespace Sys2Proof.Machine

/-- The CSRW to `status` puts its source there and ends the run with it (R103). -/
theorem exec_csrw_status (rs1 : RegSpec) (s : State) :
    exec (.csrw csrStatus rs1 0#5) s = .next (setPc (writeStatus s (readReg s rs1)) (s.pc + 4#32)) := rfl

/-- Only CSRW is of the CSR kind. -/
theorem eq_csrw_of_kindOf {s : State} {i : Instr} {n : CsrNum} {rd : RegSpec} (h : kindOf s i = .csr n rd) :
    ∃ rs1, i = .csrw n rs1 rd := by
  cases i <;> simp only [kindOf, reduceCtorEq, Kind.csr.injEq] at h
  obtain ⟨rfl, rfl⟩ := h
  exact ⟨_, rfl⟩

/-- A completed instruction leaves the outcome marker, or it is the CSRW to `status`. -/
theorem run_eq_or_csrw_status {i : Instr} {s t : State} (h : exec i s = .next t) :
    t.run = s.run ∨ ∃ rs1, i = .csrw csrStatus rs1 0#5 := by
  obtain ⟨v, p, rfl, -⟩ | ⟨a, w, v, -, -, -, rfl⟩ | ⟨v, hk, rfl⟩ | ⟨v, -, rfl⟩ := exec_next_cases h
  · exact .inl (by simp)
  · exact .inl rfl
  · exact .inr (eq_csrw_of_kindOf hk)
  · exact .inl rfl

/-! ### No instruction looks at a CSR -/

section
variable (u v : Word) (s : State)

theorem writeReg_withCsrs (rd : RegSpec) (x : Word) : writeReg (withCsrs u v s) rd x = withCsrs u v (writeReg s rd x) := by
  unfold writeReg
  split <;> rfl

/-- Two outcomes are the same but for the CSRs of a next state. -/
def SameOffCsrs (o o' : Host.Outcome State Fault Refusal) : Prop :=
  onNext (withCsrs 0#32 0#32) o = onNext (withCsrs 0#32 0#32) o'

theorem sameOffCsrs_writeResult (rd : RegSpec) (x : Word) :
    SameOffCsrs (writeResult (withCsrs u v s) rd x) (writeResult s rd x) := by
  rw [writeResult, writeReg_withCsrs]
  rfl

theorem sameOffCsrs_loadInto (rd : RegSpec) (a : Word) (w : Width) (ext : BitVec w.bits → Word) :
    SameOffCsrs (loadInto (withCsrs u v s) rd a w ext) (loadInto s rd a w ext) := by
  have hread : memRead (withCsrs u v s) a w = memRead s a w := rfl
  rw [loadInto, loadInto, hread]
  cases memRead s a w with
  | error f => rfl
  | ok x => exact sameOffCsrs_writeResult u v s rd (ext x)

theorem sameOffCsrs_storeFrom (a : Word) (w : Width) (x : BitVec w.bits) :
    SameOffCsrs (storeFrom (withCsrs u v s) a w x) (storeFrom s a w x) := by
  have hvalid : accessValid (withCsrs u v s) a w = accessValid s a w := rfl
  rw [storeFrom_eq, storeFrom_eq, hvalid]
  split_ifs <;> rfl

theorem sameOffCsrs_jumpAndLink (rd : RegSpec) (t : Word) :
    SameOffCsrs (jumpAndLink (withCsrs u v s) rd t) (jumpAndLink s rd t) := by
  rw [jumpAndLink_eq, jumpAndLink_eq, writeReg_withCsrs]
  split_ifs <;> rfl

theorem sameOffCsrs_branch (c : Bool) (t : Word) : SameOffCsrs (branch (withCsrs u v s) c t) (branch s c t) := by
  rw [branch_eq, branch_eq]
  split_ifs <;> rfl

theorem sameOffCsrs_execCsrw (n : CsrNum) (rs1 rd : RegSpec) :
    SameOffCsrs (execCsrw n rs1 rd (withCsrs u v s)) (execCsrw n rs1 rd s) := by
  unfold execCsrw
  split_ifs <;> rfl

/-- Every instruction does the same whatever the CSRs hold: its operands come from the registers, the pc and memory. -/
theorem sameOffCsrs_exec (i : Instr) : SameOffCsrs (exec i (withCsrs u v s)) (exec i s) := by
  cases i with
  | csrw => exact sameOffCsrs_execCsrw u v s _ _ _
  | add | sub | and | or | xor | slt | sltu | sra | srl | sll | mul | div | divu | rem | remu | addi | andi | ori | xori
  | slti | sltiu | srai | srli | slli | lui | auipc => exact sameOffCsrs_writeResult u v s _ _
  | lw | lh | lhu | lb | lbu => exact sameOffCsrs_loadInto u v s _ _ _ _
  | sw | sh | sb => exact sameOffCsrs_storeFrom u v s _ _ _
  | jal | jalr => exact sameOffCsrs_jumpAndLink u v s _ _
  | beq | bne | blt | bge | bltu | bgeu => exact sameOffCsrs_branch u v s _ _

/-- Neither the fetch nor the decoder looks at a CSR. -/
theorem nextInstr_withCsrs : nextInstr (withCsrs u v s) = nextInstr s := rfl

end

end Sys2Proof.Machine
end

section
/-! The statements about every instruction: what each leaves alone, and where it stops (00_scope.md section 5.3;
10_state.md; 40_csr.md; 60_exceptions.md). -/

namespace Sys2Proof.Machine

/-- Settles O18: no kind of instruction answers a refusal. -/
theorem noInstructionIsRefused : Obligations.NoInstructionIsRefused := by
  intro i s r h
  cases hk : kindOf s i with
  | arith => obtain ⟨v, e⟩ := exec_of_arith hk; rw [e] at h; cases h
  | load a w => obtain ⟨v, e⟩ := exec_of_load hk; rw [e] at h; split_ifs at h
  | store a w => obtain ⟨v, e⟩ := exec_of_store hk; rw [e] at h; split_ifs at h
  | jump t => rw [exec_of_jump hk] at h; split_ifs at h
  | branch t => obtain ⟨c, e⟩ := exec_of_branch hk; rw [e] at h; split_ifs at h
  | csr n rd => obtain ⟨v, e⟩ := exec_of_csr hk; rw [e] at h; split_ifs at h

/-- Settles O19: the faults of each kind of instruction, in the order of its checks. -/
theorem faultsHaveTheirCauses : Obligations.FaultsHaveTheirCauses := by
  intro i s f h
  cases hk : kindOf s i with
  | arith => obtain ⟨v, e⟩ := exec_of_arith hk; rw [e] at h; cases h
  | load a w =>
    obtain ⟨v, e⟩ := exec_of_load hk
    rw [e] at h
    refine .inl ⟨a, w, rfl, ?_⟩
    split_ifs at h with halign hvalid <;> cases h
    · exact .inl ⟨halign, rfl⟩
    · exact .inr ⟨by simpa using halign, hvalid, rfl⟩
  | store a w =>
    obtain ⟨v, e⟩ := exec_of_store hk
    rw [e] at h
    refine .inr (.inl ⟨a, w, rfl, ?_⟩)
    split_ifs at h with halign hvalid <;> cases h
    · exact .inl ⟨halign, rfl⟩
    · exact .inr ⟨by simpa using halign, hvalid, rfl⟩
  | jump t =>
    rw [exec_of_jump hk] at h
    split_ifs at h with ht; cases h
    exact .inr (.inr (.inl ⟨t, .inl rfl, (targetAligned_iff t).not.1 ht, rfl⟩))
  | branch t =>
    obtain ⟨c, e⟩ := exec_of_branch hk
    rw [e] at h
    split_ifs at h with _ ht; cases h
    exact .inr (.inr (.inl ⟨t, .inr rfl, (targetAligned_iff t).not.1 ht, rfl⟩))
  | csr n rd =>
    obtain ⟨v, e⟩ := exec_of_csr hk
    rw [e] at h
    refine .inr (.inr (.inr ⟨n, rd, rfl, ?_⟩))
    split_ifs at h with hrd hstatus hstats <;> cases h
    · exact .inl ⟨hrd, rfl⟩
    · exact .inr ⟨not_not.1 hrd, hstatus, hstats, rfl⟩

/-- Settles O20: only a jump or a branch goes anywhere but pc + 4. -/
theorem pcAdvancesByFour : Obligations.PcAdvancesByFour := by
  intro i s t h hkind
  have hpc : t.pc = s.pc + 4#32 := by
    obtain ⟨v, p, rfl, hp⟩ | ⟨a, w, v, -, -, -, rfl⟩ | ⟨v, -, rfl⟩ | ⟨v, -, rfl⟩ := exec_next_cases h
    · obtain rfl | ⟨-, hjump | hbranch⟩ := hp
      · rfl
      · exact absurd hjump (hkind p).1
      · exact absurd hbranch (hkind p).2
    all_goals rfl
  rw [hpc, BitVec.toNat_add]
  rfl

/-- Settles O21: beside the destination a completed instruction leaves the register file. -/
theorem onlyTheDestinationIsWritten : Obligations.OnlyTheDestinationIsWritten := by
  intro i s t h
  refine ⟨fun r hr => ?_, readReg_x0 t⟩
  obtain ⟨v, p, rfl, -⟩ | ⟨a, w, v, -, -, -, rfl⟩ | ⟨v, -, rfl⟩ | ⟨v, -, rfl⟩ := exec_next_cases h
  · rw [readReg_setPc, readReg_writeReg_other s v hr]
  all_goals rfl

/-- Settles O22: beside a store a completed instruction leaves memory and the stored set. -/
theorem onlyStoresWriteMemory : Obligations.OnlyStoresWriteMemory := by
  intro i s t h hkind
  obtain ⟨v, p, rfl, -⟩ | ⟨a, w, v, hstore, -, -, -⟩ | ⟨v, -, rfl⟩ | ⟨v, -, rfl⟩ := exec_next_cases h
  · exact ⟨by simp, by simp⟩
  · exact absurd hstore (hkind a w)
  all_goals exact SameMemory.refl s

/-- Settles O23: beside CSRW a completed instruction leaves the CSRs and the outcome marker. -/
theorem onlyCsrwWritesCsrs : Obligations.OnlyCsrwWritesCsrs := by
  intro i s t h hkind
  obtain ⟨v, p, rfl, -⟩ | ⟨a, w, v, -, -, -, rfl⟩ | ⟨v, hcsr, -⟩ | ⟨v, hcsr, -⟩ := exec_next_cases h
  · exact ⟨⟨by simp, by simp⟩, by simp⟩
  · exact ⟨⟨rfl, rfl⟩, rfl⟩
  all_goals exact absurd hcsr (hkind _ _)

/-- Settles O24: a step runs in a run that goes on, every instruction but the CSRW to `status` leaves it so, and that one
ends it with its source. -/
theorem runEndsOnlyByStatus : Obligations.RunEndsOnlyByStatus := by
  intro s t v h
  obtain ⟨i, hi, hexec, hrun⟩ := step_next h
  constructor
  · intro hended
    obtain hsame | ⟨rs1, rfl⟩ := run_eq_or_csrw_status hexec
    · rw [hended, hrun] at hsame; cases hsame
    · rw [exec_csrw_status] at hexec; cases hexec; cases hended
      exact ⟨rs1, hi, rfl⟩
  · rintro ⟨rs1, hcsrw, rfl⟩
    rw [hi] at hcsrw; cases hcsrw
    cases (exec_csrw_status rs1 s).symm.trans hexec
    rfl

/-- Settles O25: the same instruction is next, and it does the same off the CSRs. -/
theorem csrsInfluenceNothing : Obligations.CsrsInfluenceNothing := by
  intro s u v
  rw [step, nextInstr_withCsrs, step]
  cases nextInstr s with
  | next i => exact sameOffCsrs_exec u v s i
  | fault f => rfl
  | refused r => rfl

end Sys2Proof.Machine
end

section
/-! SUPPORT. The values of the arithmetic instructions as sums, products, quotients and remainders of integers
(41_reg_reg_arith.md; 42_reg_imm_arith.md rules R140, R144, R145, R150). -/

namespace Sys2Proof.Machine

/-! ### Sums and products modulo 2^32 -/

/-- Sign extension keeps the value of an immediate (R66). -/
theorem toInt_immI (imm : BitVec 12) : (immI imm).toInt = imm.toInt :=
  BitVec.toInt_signExtend_of_le (by decide)

section
variable (a b : Word)

theorem ofInt_toInt_add : BitVec.ofInt 32 (a.toInt + b.toInt) = a + b := by
  rw [BitVec.ofInt_add, BitVec.ofInt_toInt, BitVec.ofInt_toInt]

theorem ofInt_toInt_sub : BitVec.ofInt 32 (a.toInt - b.toInt) = a - b := by
  rw [Int.sub_eq_add_neg, BitVec.ofInt_add, BitVec.ofInt_neg, BitVec.ofInt_toInt, BitVec.ofInt_toInt, BitVec.sub_eq_add_neg]

theorem add_eq_ofNat : a + b = BitVec.ofNat 32 ((a.toNat + b.toNat) % 2 ^ 32) := by
  rw [← BitVec.toNat_add, BitVec.ofNat_toNat, BitVec.setWidth_eq]

theorem add_immI (imm : BitVec 12) : a + immI imm = BitVec.ofInt 32 (a.toInt + imm.toInt) := by
  rw [← toInt_immI, ofInt_toInt_add]

theorem mulLow_eq : mulLow a b = a * b := by
  rw [mulLow, BitVec.ofInt_mul, BitVec.ofInt_toInt, BitVec.ofInt_toInt]

end

theorem boolWord_decide (p : Prop) [Decidable p] : boolWord (decide p) = if p then 1#32 else 0#32 := by
  simp [boolWord]

/-! ### Division off the corners -/

theorem divOverflows_eq_false {a b : Word} (ho : ¬(a = 0x80000000#32 ∧ b = 0xFFFFFFFF#32)) :
    divOverflows a b = false := by
  simpa [divOverflows] using ho

section
variable {a b : Word} (hb : b ≠ 0#32)
include hb

theorem toNat_divUnsigned : (divUnsigned divCorners a b).toNat = a.toNat / b.toNat := by
  rw [divUnsigned, if_neg hb, BitVec.toNat_ofNat]
  exact Nat.mod_eq_of_lt (lt_of_le_of_lt (Nat.div_le_self _ _) a.isLt)

theorem toNat_remUnsigned : (remUnsigned divCorners a b).toNat = a.toNat % b.toNat := by
  rw [remUnsigned, if_neg hb, BitVec.toNat_ofNat]
  exact Nat.mod_eq_of_lt (lt_of_le_of_lt (Nat.mod_le _ _) a.isLt)

variable (ho : ¬(a = 0x80000000#32 ∧ b = 0xFFFFFFFF#32))
include ho

/-- Off the overflow the exact quotient fits into 32 bits (R124). -/
theorem toInt_divSigned : (divSigned divCorners a b).toInt = a.toInt.tdiv b.toInt := by
  have hfits : (a.sdiv b).toInt = a.toInt.tdiv b.toInt :=
    BitVec.toInt_sdiv_of_ne_or_ne a b (not_and_or.1 ho)
  rw [divSigned, if_neg hb, divOverflows_eq_false ho, if_neg (by decide), ← hfits, BitVec.ofInt_toInt]

/-- The remainder is the one of the truncated quotient, and fits (R124, D12). -/
theorem toInt_remSigned : (remSigned divCorners a b).toInt = a.toInt.tmod b.toInt := by
  rw [remSigned, if_neg hb, divOverflows_eq_false ho, if_neg (by decide), ← Int.tmod_def, ← BitVec.toInt_srem,
    BitVec.ofInt_toInt]

end

/-- A truncated remainder is zero or has the sign of the dividend. -/
theorem tmod_eq_zero_or_neg_iff (a b : Int) : a.tmod b = 0 ∨ (a.tmod b < 0 ↔ a < 0) := by
  rcases le_or_gt 0 a with ha | ha
  · have := Int.tmod_nonneg b ha
    omega
  · have hneg := Int.tmod_nonneg b (Int.neg_nonneg_of_nonpos ha.le)
    rw [Int.neg_tmod] at hneg
    omega

theorem toInt_ne_zero {b : Word} (hb : b ≠ 0#32) : b.toInt ≠ 0 :=
  fun h => hb (BitVec.eq_of_toInt_eq h)

theorem toNat_pos_of_ne_zero {b : Word} (hb : b ≠ 0#32) : 0 < b.toNat :=
  Nat.pos_of_ne_zero fun h => hb (BitVec.eq_of_toNat_eq h)

end Sys2Proof.Machine
end

section
/-! The statements on arithmetic, division and comparison (41_reg_reg_arith.md; 42_reg_imm_arith.md). Each meaning is
`writeResult` of a value, so a proof says what the value is. -/

namespace Sys2Proof.Machine

/-- Settles O26: sums and differences of words are those of their integers modulo 2^32. -/
theorem addSubAddiResult : Obligations.AddSubAddiResult := by
  refine fun s rd rs1 rs2 imm => ⟨?add, ?sub, ?addi⟩
  case add => exact exists_writesOnly rfl (add_eq_ofNat _ _)
  case sub => exact exists_writesOnly rfl (ofInt_toInt_sub _ _).symm
  case addi => exact exists_writesOnly rfl (add_immI _ _)

/-- Settles O29: a comparison is written as 1 or 0; the immediate of SLTI keeps its value under sign extension. -/
theorem setLessThanResult : Obligations.SetLessThanResult := by
  refine fun s rd rs1 rs2 imm => ⟨?slt, ?sltu, ?slti, ?sltiu⟩
  case slt => exact exists_writesOnly rfl (boolWord_decide _)
  case sltu => exact exists_writesOnly rfl (boolWord_decide _)
  case slti => rw [← toInt_immI]; exact exists_writesOnly rfl (boolWord_decide _)
  case sltiu => exact exists_writesOnly rfl (boolWord_decide _)

/-- Settles O33: the U-immediate is the field times 2^12. -/
theorem auipcResult : Obligations.AuipcResult := by
  intro s rd imm
  refine exists_writesOnly rfl (BitVec.eq_of_toNat_eq ?_)
  rw [BitVec.toNat_add, toNat_immU, BitVec.toNat_ofNat, Nat.mod_mod]

/-- Settles O34: the low half of the product is the product of the words, whichever way they are read. -/
theorem mulResult : Obligations.MulResult := by
  intro s rd rs1 rs2
  exact exists_value rfl ⟨by rw [mulLow_eq, BitVec.toNat_mul], rfl⟩

/-- Settles O35: quotient and remainder are the truncated ones of the integers. -/
theorem divRemLaw : Obligations.DivRemLaw := by
  intro s rd rs1 rs2 a b hb ho
  obtain ⟨t, hdiv, ht⟩ := writeResult_next s rd (divSigned divCorners a b)
  obtain ⟨u, hrem, hu⟩ := writeResult_next s rd (remSigned divCorners a b)
  refine ⟨t, u, _, _, hdiv, ht, hrem, hu, ?_⟩
  rw [toInt_divSigned hb ho, toInt_remSigned hb ho]
  refine ⟨(Int.mul_tdiv_add_tmod _ _).symm, ?_, tmod_eq_zero_or_neg_iff _ _⟩
  rw [Int.natAbs_tmod]
  exact Nat.mod_lt _ (Int.natAbs_pos.2 (toInt_ne_zero hb))

/-- Settles O36: quotient and remainder are those of the naturals. -/
theorem divuRemuLaw : Obligations.DivuRemuLaw := by
  intro s rd rs1 rs2 a b hb
  obtain ⟨t, hdiv, ht⟩ := writeResult_next s rd (divUnsigned divCorners a b)
  obtain ⟨u, hrem, hu⟩ := writeResult_next s rd (remUnsigned divCorners a b)
  refine ⟨t, u, _, _, hdiv, ht, hrem, hu, ?_⟩
  rw [toNat_divUnsigned hb, toNat_remUnsigned hb]
  exact ⟨(Nat.div_add_mod _ _).symm, Nat.mod_lt _ (toNat_pos_of_ne_zero hb)⟩

/-- Settles O37: the values of the corner table (log entry 7). -/
theorem divisionCorners : Obligations.DivisionCorners := by
  refine fun s rd rs1 rs2 => ⟨fun hzero => ⟨?div, ?divu, ?rem, ?remu⟩,
    fun hmin hminus => ⟨?divOverflow, ?remOverflow⟩⟩
  case div => exact exists_writesOnly rfl (if_pos hzero)
  case divu => exact exists_writesOnly rfl (if_pos hzero)
  case rem => exact exists_writesOnly rfl (if_pos hzero)
  case remu => exact exists_writesOnly rfl (if_pos hzero)
  case divOverflow => exact exists_writesOnly rfl (by rw [hmin, hminus]; rfl)
  case remOverflow => exact exists_writesOnly rfl (by rw [hmin, hminus]; rfl)

end Sys2Proof.Machine
end

section
/-! SUPPORT. The answers of loads and stores from the conditions of their statements, and the bytes of the values they carry
(20_memory.md rules R31 to R37; 43_memory_instrs.md rules R160 to R169). -/

namespace Sys2Proof.Machine

/-! ### Loads and stores, answer by answer -/

section
variable {s : State} {a : Word} {w : Width}

/-- The conditions of a complete access, byte by byte (R33, R34, R35). -/
theorem aligned_and_valid (ha : a.toNat % w.bytes = 0)
    (hv : ∀ k, k < w.bytes → memValid s (a + BitVec.ofNat 32 k) = true) :
    aligned a w = true ∧ accessValid s a w = true :=
  ⟨(aligned_iff a w).2 ha, (accessValid_iff s a w).2 hv⟩

/-- Every address is a multiple of the width of a byte access (R38). -/
@[simp] theorem aligned_byte (a : Word) : aligned a .byte = true := by
  simp [aligned, Width.bytes, Nat.mod_one]

@[simp] theorem accessValid_byte (s : State) (a : Word) : accessValid s a .byte = memValid s a := by
  simp [accessValid, accessBytes]

section
variable (rd : RegSpec) (ext : BitVec w.bits → Word)

theorem loadInto_misaligned (ha : aligned a w = false) :
    loadInto s rd a w ext = .fault (.misalignedLoad a w.bytes) := by
  rw [loadInto_eq, if_pos ha]

theorem loadInto_invalid (ha : aligned a w = true) (hv : accessValid s a w = false) :
    loadInto s rd a w ext = .fault (.loadAccess a w.bytes) := by
  rw [loadInto_eq, ha, if_neg (by decide), if_pos hv]

theorem loadInto_complete (h : aligned a w = true ∧ accessValid s a w = true) :
    loadInto s rd a w ext = writeResult s rd (ext (readLE s.mem a w)) := by
  rw [loadInto, memRead_ok h.1 h.2]

end

section
variable (v : BitVec w.bits)

theorem storeFrom_misaligned (ha : aligned a w = false) :
    storeFrom s a w v = .fault (.misalignedStore a w.bytes) := by
  rw [storeFrom_eq, if_pos ha]

theorem storeFrom_invalid (ha : aligned a w = true) (hv : accessValid s a w = false) :
    storeFrom s a w v = .fault (.storeAccess a w.bytes) := by
  rw [storeFrom_eq, ha, if_neg (by decide), if_pos hv]

/-- A complete store leaves the bytes of any word whose low bytes are those of the value stored. -/
theorem storeFrom_complete (u : Word) (h : aligned a w = true ∧ accessValid s a w = true)
    (hv : ∀ k, k < w.bytes → v.extractLsb' (8 * k) 8 = u.extractLsb' (8 * k) 8) :
    ∃ t, storeFrom s a w v = .next t ∧ StoresOnly s t a w u := by
  refine ⟨_, ?_, storesOnly_storeBytes s a w u v hv⟩
  rw [storeFrom_eq, h.1, h.2, if_neg (by decide), if_neg (by decide)]

theorem storeFrom_next {t : State} (h : storeFrom s a w v = .next t) :
    (aligned a w = true ∧ accessValid s a w = true) ∧ t = setPc (storeBytes s a w v) (s.pc + 4#32) := by
  rw [storeFrom_eq] at h
  split_ifs at h with ha hv
  cases h
  exact ⟨⟨by simpa using ha, by simpa using hv⟩, rfl⟩

end

end

/-! ### The bytes of a value -/

/-- Byte k of a little-endian value is the byte at the address k above (R31). -/
theorem extractLsb'_readLE (m : Memory) (a : Word) {w : Width} {k : Nat} (hk : k < w.bytes) :
    (readLE m a w).extractLsb' (8 * k) 8 = m.read (a + BitVec.ofNat 32 k) := by
  have hlow {n : Nat} (hi : BitVec n) (lo : Byte) : (hi ++ lo).extractLsb' 0 8 = lo :=
    BitVec.extractLsb'_append_eq_right
  have habove {n : Nat} (i : Nat) (hi : BitVec n) (lo : Byte) : (hi ++ lo).extractLsb' (i + 8) 8 = hi.extractLsb' i 8 :=
    BitVec.extractLsb'_append_eq_of_le (Nat.le_add_left 8 i)
  have hself (b : Byte) : b.extractLsb' 0 8 = b := BitVec.extractLsb'_eq_self
  cases w with
  | byte =>
    obtain rfl : k = 0 := Nat.lt_one_iff.1 hk
    rw [BitVec.add_zero]; exact hself _
  | half =>
    obtain rfl | rfl : k = 0 ∨ k = 1 := by simp only [Width.bytes] at hk; omega
    · rw [BitVec.add_zero]; exact hlow _ _
    · exact (habove 0 _ _).trans (hself _)
  | word =>
    obtain rfl | rfl | rfl | rfl : k = 0 ∨ k = 1 ∨ k = 2 ∨ k = 3 := by simp only [Width.bytes] at hk; omega
    · rw [BitVec.add_zero]; exact hlow _ _
    · exact (habove 0 _ _).trans (hlow _ _)
    · exact (habove 8 _ _).trans ((habove 0 _ _).trans (hlow _ _))
    · exact (habove 16 _ _).trans ((habove 8 _ _).trans ((habove 0 _ _).trans (hself _)))

/-- A value is read where its bytes stand: it is what a write of it would leave there. -/
theorem readLE_eq_of_bytes {m : Memory} {a : Word} {w : Width} {v : BitVec w.bits}
    (h : ∀ k, k < w.bytes → m.read (a + BitVec.ofNat 32 k) = v.extractLsb' (8 * k) 8) : readLE m a w = v := by
  rw [← readLE_writeLE m a w v]
  exact readLE_congr fun k hk => by rw [h k hk, read_writeLE_same m a w v hk]

/-- Bytes of a part of a word are bytes of the word. -/
theorem extractLsb'_extractLsb'_byte (v : Word) {j k n : Nat} (h : 8 * k + 8 ≤ n) :
    (v.extractLsb' (8 * j) n).extractLsb' (8 * k) 8 = v.extractLsb' (8 * (j + k)) 8 := by
  apply BitVec.eq_of_getLsbD_eq
  intro i hi
  have hin : 8 * k + i < n := by omega
  simp [hi, hin, Nat.mul_add, Nat.add_assoc]

theorem byte_le_bits {w : Width} {k : Nat} (hk : k < w.bytes) : 8 * k + 8 ≤ w.bits := by
  cases w <;> simp only [Width.bytes] at hk <;> simp only [Width.bits] <;> omega

theorem extractLsb'_signExtend_of_le {n i l : Nat} (v : BitVec n) (h : i + l ≤ n) (hn : n ≤ 32) :
    (v.signExtend 32).extractLsb' i l = v.extractLsb' i l := by
  apply BitVec.eq_of_getLsbD_eq
  intro j hj
  have hin : i + j < n := by omega
  have hin' : i + j < 32 := by omega
  rw [BitVec.getLsbD_extractLsb', BitVec.getLsbD_extractLsb', BitVec.getLsbD_signExtend]
  simp only [hj, hin, hin', decide_true, Bool.true_and, if_true]

/-- The bits above a sign-extended value are copies of its top bit. -/
theorem getLsbD_signExtend_above {n j : Nat} (v : BitVec n) (hn : n ≤ 32) (hj : n ≤ j) (hj' : j < 32) :
    (v.signExtend 32).getLsbD j = (v.signExtend 32).getLsbD (n - 1) := by
  rw [getLsbD_signExtend_eq_min v hj', getLsbD_signExtend_eq_min v (by omega)]
  congr 1
  omega

/-- The bits above a zero-extended value are zero. -/
theorem getLsbD_setWidth_above {n j : Nat} (v : BitVec n) (hj : n ≤ j) : (v.setWidth 32).getLsbD j = false := by
  rw [BitVec.getLsbD_setWidth, BitVec.getLsbD_of_ge v j hj, Bool.and_false]

/-! ### Reading back a stored word -/

/-- An access inside an aligned and valid word is aligned and valid, when it stands at a multiple of its width. -/
theorem aligned_and_valid_inside {s : State} {a : Word} {w : Width} {j : Nat}
    (h : aligned a .word = true ∧ accessValid s a .word = true) (hj : j % w.bytes = 0) (hle : j + w.bytes ≤ 4) :
    aligned (a + BitVec.ofNat 32 j) w = true ∧ accessValid s (a + BitVec.ofNat 32 j) w = true := by
  have ha : a.toNat % 4 = 0 := (aligned_iff a .word).1 h.1
  have hj4 : j < 4 := by cases w <;> simp only [Width.bytes] at hle <;> omega
  refine aligned_and_valid ?_ fun k hk => ?_
  · rw [toNat_add_ofNat_of_aligned ha hj4]
    cases w <;> simp only [Width.bytes] at hj ⊢ <;> omega
  · rw [BitVec.add_assoc, ← BitVec.ofNat_add]
    exact (accessValid_iff s a .word).1 h.2 (j + k) (lt_of_lt_of_le (by omega) hle)

/-- After a word is stored, an aligned read inside it gives its bits there (R32). -/
theorem memRead_inside_stored_word {s : State} {a v p : Word} {w : Width} {j : Nat}
    (h : aligned a .word = true ∧ accessValid s a .word = true) (hj : j % w.bytes = 0) (hle : j + w.bytes ≤ 4) :
    memRead (setPc (storeBytes s a .word v) p) (a + BitVec.ofNat 32 j) w = .ok (v.extractLsb' (8 * j) w.bits) := by
  obtain ⟨halign, hvalid⟩ := aligned_and_valid_inside h hj hle
  have hvalid' : accessValid (setPc (storeBytes s a .word v) p) (a + BitVec.ofNat 32 j) w = true := hvalid
  rw [memRead_ok halign hvalid', setPc_mem, storeBytes_mem, readLE_eq_of_bytes]
  intro k hk
  have hword : j + k < Width.word.bytes := lt_of_lt_of_le (by omega) hle
  rw [BitVec.add_assoc, ← BitVec.ofNat_add, read_writeLE_same _ _ _ _ hword,
    extractLsb'_extractLsb'_byte v (byte_le_bits hk)]

end Sys2Proof.Machine
end

section
/-! The statements on loads and stores (20_memory.md sections 2, 3 and 4; 43_memory_instrs.md). -/

namespace Sys2Proof.Machine

/-- Settles O38: both addresses are the base plus the sign-extended offset; x0 reads zero. -/
theorem effectiveAddressWraps : Obligations.EffectiveAddressWraps :=
  fun _ _ imm => ⟨add_immI _ imm, add_immI _ imm, BitVec.zero_add _, BitVec.zero_add _⟩

/-- Settles O39: each load completes with the little-endian value, extended; extension keeps its bytes and fills above. -/
theorem loadsComplete : Obligations.LoadsComplete := by
  intro s rd rs1 imm a
  refine ⟨fun ha hv => ?lw, fun ha hv => ⟨?lh, ?lhu⟩, fun hv => ⟨?lb, ?lbu⟩⟩
  case lw =>
    have h := aligned_and_valid (w := .word) ha hv
    exact exists_value (loadInto_complete rd _ h) fun k hk => extractLsb'_readLE s.mem a hk
  case lh =>
    have h := aligned_and_valid (w := .half) ha hv
    refine exists_value (loadInto_complete rd _ h) ⟨fun k hk => ?_, fun j => getLsbD_signExtend_above _ (by decide)⟩
    rw [extractLsb'_signExtend_of_le _ (byte_le_bits (w := .half) hk) (by decide)]
    exact extractLsb'_readLE s.mem a hk
  case lhu =>
    have h := aligned_and_valid (w := .half) ha hv
    refine exists_value (loadInto_complete rd _ h) ⟨fun k hk => ?_, fun j hj _ => getLsbD_setWidth_above _ hj⟩
    rw [BitVec.extractLsb'_setWidth_of_le (by omega)]
    exact extractLsb'_readLE s.mem a hk
  case lb =>
    have h : aligned a .byte = true ∧ accessValid s a .byte = true := by simpa using hv
    refine exists_value (loadInto_complete rd _ h) ⟨?_, fun j => getLsbD_signExtend_above _ (by decide)⟩
    rw [extractLsb'_signExtend_of_le _ (by decide) (by decide)]
    exact BitVec.extractLsb'_eq_self
  case lbu =>
    have h : aligned a .byte = true ∧ accessValid s a .byte = true := by simpa using hv
    refine exists_value (loadInto_complete rd _ h) ⟨?_, fun j hj _ => getLsbD_setWidth_above _ hj⟩
    rw [BitVec.extractLsb'_setWidth_of_le (by decide)]
    exact BitVec.extractLsb'_eq_self

/-- Settles O40: the checks of MemRead in their order. -/
theorem loadsFault : Obligations.LoadsFault := by
  intro s rd rs1 imm a
  refine ⟨fun ha => ?_, fun ha hv => ?_, fun ha => ?_, fun ha hv => ?_, fun hv => ?_⟩
  · exact loadInto_misaligned rd _ ((aligned_eq_false_iff a .word).2 ha)
  · exact loadInto_invalid rd _ ((aligned_iff a .word).2 ha) ((accessValid_eq_false_iff s a .word).2 hv)
  · have ha' := (aligned_eq_false_iff a .half).2 ha
    exact ⟨loadInto_misaligned rd _ ha', loadInto_misaligned rd _ ha'⟩
  · have ha' := (aligned_iff a .half).2 ha
    have hv' := (accessValid_eq_false_iff s a .half).2 hv
    exact ⟨loadInto_invalid rd _ ha' hv', loadInto_invalid rd _ ha' hv'⟩
  · have hv' := (accessValid_byte s a).trans hv
    exact ⟨loadInto_invalid rd _ (aligned_byte a) hv', loadInto_invalid rd _ (aligned_byte a) hv'⟩

/-- Settles O41: each store completes, and the low half or byte of `rs2` has the low bytes of `rs2`. -/
theorem storesComplete : Obligations.StoresComplete := by
  intro s rs2 rs1 imm a
  refine ⟨fun ha hv => ?sw, fun ha hv => ?sh, fun hv => ?sb⟩
  case sw => exact storeFrom_complete _ _ (aligned_and_valid (w := .word) ha hv) fun _ _ => rfl
  case sh =>
    refine storeFrom_complete _ _ (aligned_and_valid (w := .half) ha hv) fun k hk => ?_
    exact BitVec.extractLsb'_extractLsb'_of_le (byte_le_bits hk)
  case sb =>
    refine storeFrom_complete _ _ (by simpa using hv) fun k hk => ?_
    exact BitVec.extractLsb'_extractLsb'_of_le (byte_le_bits hk)

/-- Settles O42: the checks of MemWrite in their order. -/
theorem storesFault : Obligations.StoresFault := by
  intro s rs2 rs1 imm a
  refine ⟨fun ha => ?_, fun ha hv => ?_, fun ha => ?_, fun ha hv => ?_, fun hv => ?_⟩
  · exact storeFrom_misaligned _ ((aligned_eq_false_iff a .word).2 ha)
  · exact storeFrom_invalid _ ((aligned_iff a .word).2 ha) ((accessValid_eq_false_iff s a .word).2 hv)
  · exact storeFrom_misaligned _ ((aligned_eq_false_iff a .half).2 ha)
  · exact storeFrom_invalid _ ((aligned_iff a .half).2 ha) ((accessValid_eq_false_iff s a .half).2 hv)
  · exact storeFrom_invalid _ (aligned_byte a) ((accessValid_byte s a).trans hv)

/-- Settles O43: the reads of each width inside the stored word. -/
theorem loadsSeeTheStoredWord : Obligations.LoadsSeeTheStoredWord := by
  intro s t rs2 rs1 imm hexec a v
  obtain ⟨h, rfl⟩ := storeFrom_next (w := .word) v hexec
  have hinside (w : Width) (j : Nat) (hj : j % w.bytes = 0) (hle : j + w.bytes ≤ 4) :=
    memRead_inside_stored_word (v := v) (p := s.pc + 4#32) h hj hle
  refine ⟨?_, ?_, hinside .half 2 rfl le_rfl, fun k hk => hinside .byte k (Nat.mod_one k) hk⟩
  · simpa using hinside .word 0 rfl le_rfl
  · simpa using hinside .half 0 rfl (by decide)

end Sys2Proof.Machine
end

section
/-! SUPPORT. The targets of the jumps, the branches by their condition, and two results after one another in one register
(44_jumps.md; 45_branches.md; 46_pseudo_instructions.md). -/

namespace Sys2Proof.Machine

/-! ### Targets -/

/-- A target is a multiple of 4 when its bits 1 and 0 are zero (R180). -/
theorem targetAligned_iff_bits (t : Word) : targetAligned t = true ↔ t.getLsbD 0 = false ∧ t.getLsbD 1 = false := by
  rw [targetAligned, beq_iff_eq]
  constructor
  · intro h
    have hbit (i : Nat) : (t.extractLsb' 0 2).getLsbD i = false := by rw [h, BitVec.getLsbD_zero]
    exact ⟨by simpa using hbit 0, by simpa using hbit 1⟩
  · rintro ⟨h0, h1⟩
    apply BitVec.eq_of_getLsbD_eq
    intro i hi
    obtain rfl | rfl : i = 0 ∨ i = 1 := by omega
    · simpa using h0
    · simpa using h1

/-- Clearing bit 0 leaves the other bits (R182). -/
theorem getLsbD_clear_bit_zero (v : Word) (k : Nat) :
    (v &&& 0xFFFFFFFE#32).getLsbD k = (decide (0 < k) && v.getLsbD k) := by
  have hmask : 0xFFFFFFFE#32 = ~~~1#32 := by decide
  rw [hmask, BitVec.getLsbD_and, BitVec.getLsbD_not, BitVec.getLsbD_one]
  rcases lt_or_ge k 32 with hk | hk
  · simp [hk, Nat.pos_iff_ne_zero, Bool.and_comm]
  · simp [BitVec.getLsbD_of_ge v k hk]

/-- The target of JALR is a multiple of 4 exactly when bit 1 of the sum is zero (R180, R182). -/
theorem targetAligned_clear_bit_zero (v : Word) : targetAligned (v &&& 0xFFFFFFFE#32) = !v.getLsbD 1 := by
  rw [Bool.eq_iff_iff, targetAligned_iff_bits, getLsbD_clear_bit_zero, getLsbD_clear_bit_zero]
  simp

theorem jumpAndLink_complete (s : State) (rd : RegSpec) {t : Word} (h : targetAligned t = true) :
    ∃ u, jumpAndLink s rd t = .next u ∧ WritesOnly s u rd (s.pc + 4#32) t :=
  ⟨_, if_pos h, writesOnly_writeReg_setPc s rd _ t⟩

theorem jumpAndLink_misaligned (s : State) (rd : RegSpec) {t : Word} (h : targetAligned t = false) :
    jumpAndLink s rd t = .fault (.misalignedFetch t) := by
  rw [jumpAndLink_eq, h, if_neg (by decide)]

/-! ### Branches by their condition -/

/-- Setting the pc alone writes no register: x0 stands for the destination. -/
theorem writesOnly_setPc (s : State) (p : Word) : WritesOnly s (setPc s p) 0#5 0#32 p :=
  writesOnly_writeReg_setPc s 0#5 0#32 p

section
variable {s : State} {c : Bool} {taken : Prop} (hc : c = true ↔ taken) {t : Word}
include hc

/-- A branch goes to its target when it is taken there, and to pc + 4 when not (R190). -/
theorem branch_complete :
    (taken → t.toNat % 4 = 0 → ∃ u, branch s c t = .next u ∧ WritesOnly s u 0#5 0#32 t) ∧
      (¬taken → ∃ u, branch s c t = .next u ∧ WritesOnly s u 0#5 0#32 (s.pc + 4#32)) := by
  rw [← hc]
  refine ⟨fun h ht => ⟨setPc s t, ?_, writesOnly_setPc s t⟩,
    fun h => ⟨setPc s (s.pc + 4#32), ?_, writesOnly_setPc s _⟩⟩
  · rw [branch_eq, if_pos h, if_pos ((targetAligned_iff t).2 ht)]
  · rw [branch_eq, if_neg h]

/-- With an aligned target a branch completes, taken or not. -/
theorem branch_complete_of_aligned (ht : t.toNat % 4 = 0) :
    ∃ u, branch s c t = .next u ∧ (taken → WritesOnly s u 0#5 0#32 t) ∧
      (¬taken → WritesOnly s u 0#5 0#32 (s.pc + 4#32)) := by
  obtain ⟨hgoes, hstays⟩ := branch_complete (s := s) (t := t) hc
  by_cases h : taken
  · obtain ⟨u, hu, hw⟩ := hgoes h ht
    exact ⟨u, hu, fun _ => hw, fun hn => absurd h hn⟩
  · obtain ⟨u, hu, hw⟩ := hstays h
    exact ⟨u, hu, fun hy => absurd hy h, fun _ => hw⟩

theorem branch_misaligned (ht : t.toNat % 4 ≠ 0) (h : taken) : branch s c t = .fault (.misalignedFetch t) := by
  rw [branch_eq, if_pos (hc.2 h), if_neg ((targetAligned_iff t).not.2 ht)]

end

section
variable (a b : Word)

theorem ltSigned_iff : ltSigned a b = true ↔ a.toInt < b.toInt := decide_eq_true_iff
theorem geSigned_iff : geSigned a b = true ↔ b.toInt ≤ a.toInt := decide_eq_true_iff
theorem ltUnsigned_iff : ltUnsigned a b = true ↔ a.toNat < b.toNat := decide_eq_true_iff
theorem geUnsigned_iff : geUnsigned a b = true ↔ b.toNat ≤ a.toNat := decide_eq_true_iff

theorem beq_zero_iff_toInt : (a == 0#32) = true ↔ a.toInt = 0 := by
  rw [beq_iff_eq, ← BitVec.toInt_inj, BitVec.toInt_zero]

theorem bne_zero_iff_toInt : (a != 0#32) = true ↔ a.toInt ≠ 0 := by
  rw [bne_iff_ne, Ne, ← BitVec.toInt_inj, BitVec.toInt_zero]

end

/-! ### Two results in one register -/

section
variable {s t u : State} {rd : RegSpec} {v v' p p' : Word}

/-- The later of two writes to one register is what is seen. -/
theorem WritesOnly.trans (h : WritesOnly s t rd v p) (h' : WritesOnly t u rd v' p') : WritesOnly s u rd v' p' := by
  obtain ⟨-, hregs, -, ⟨hmem, hstored⟩, ⟨hstatus, hstats⟩, hmap, hmode, hrun⟩ := h
  obtain ⟨hrd', hregs', hpc', ⟨hmem', hstored'⟩, ⟨hstatus', hstats'⟩, hmap', hmode', hrun'⟩ := h'
  exact ⟨hrd', fun r hr => (hregs' r hr).trans (hregs r hr), hpc',
    ⟨fun a => (hmem' a).trans (hmem a), hstored'.trans hstored⟩,
    ⟨hstatus'.trans hstatus, hstats'.trans hstats⟩, hmap'.trans hmap, hmode'.trans hmode, hrun'.trans hrun⟩

/-- What is written to x0 does not matter (R11). -/
theorem WritesOnly.congr_value (h : WritesOnly s t rd v p) (hv : rd ≠ 0#5 → v = v') : WritesOnly s t rd v' p := by
  by_cases h0 : rd = 0#5
  · subst h0; exact h
  · exact hv h0 ▸ h

/-- ADDI onto a result just written adds to it. -/
theorem exec_addi_after (h : WritesOnly s t rd v p) (imm : BitVec 12) :
    ∃ u, exec (.addi rd rd imm) t = .next u ∧ WritesOnly s u rd (v + immI imm) (p + 4#32) := by
  obtain ⟨u, hexec, hu⟩ := writeResult_next t rd (readReg t rd + immI imm)
  refine ⟨u, hexec, ?_⟩
  obtain ⟨hrd, -, rfl, -⟩ := id h
  exact (h.trans hu).congr_value fun h0 => by rw [hrd, if_neg h0]

end

/-- A word is its upper part, corrected by bit 11, above its sign-extended low twelve bits (C8, C9). -/
theorem immU_add_immI_parts (c : Word) :
    immU (c.extractLsb' 12 20 + (c.extractLsb' 11 1).setWidth 20) + immI (c.extractLsb' 0 12) = c := by
  have hlt := c.isLt
  apply BitVec.eq_of_toNat_eq
  rw [BitVec.toNat_add, toNat_immU, immI, BitVec.toNat_signExtend, BitVec.msb_eq_decide]
  simp only [BitVec.toNat_add, BitVec.toNat_setWidth, BitVec.extractLsb'_toNat, Nat.shiftRight_eq_div_pow,
    decide_eq_true_eq]
  split <;> omega

end Sys2Proof.Machine
end

section
/-! The statements on jumps, branches, CSRW and the pseudo-instructions (40_csr.md; 44_jumps.md; 45_branches.md;
46_pseudo_instructions.md). -/

namespace Sys2Proof.Machine

/-- Settles O44: the target is aligned, for JALR when bit 1 of the sum is zero. -/
theorem jumpsComplete : Obligations.JumpsComplete := by
  refine fun s rd rs1 imm12 imm21 => ⟨fun ht => ?jal, fun hbit => ?jalr⟩
  case jal => exact jumpAndLink_complete s rd ((targetAligned_iff _).2 ht)
  case jalr =>
    have ht := (targetAligned_clear_bit_zero _).trans (congrArg not hbit)
    obtain ⟨t, hexec, hwrites⟩ := jumpAndLink_complete s rd ht
    refine ⟨t, _, hexec, hwrites, ?_, fun k hk => ?_⟩
    · rw [getLsbD_clear_bit_zero]; rfl
    · rw [getLsbD_clear_bit_zero, decide_eq_true hk, Bool.true_and]

/-- Settles O45: the same conditions negated. -/
theorem jumpsFault : Obligations.JumpsFault := by
  refine fun s rd rs1 imm12 imm21 => ⟨fun ht => ?jal, fun hbit => ?jalr⟩
  case jal => exact jumpAndLink_misaligned s rd ((targetAligned_eq_false_iff _).2 ht)
  case jalr => exact jumpAndLink_misaligned s rd ((targetAligned_clear_bit_zero _).trans (congrArg not hbit))

/-- Settles O46: every branch is `branch` of its condition. -/
theorem branchesComplete : Obligations.BranchesComplete :=
  fun _ _ _ _ => ⟨branch_complete beq_iff_eq, branch_complete bne_iff_ne, branch_complete (ltSigned_iff _ _),
    branch_complete (geSigned_iff _ _), branch_complete (ltUnsigned_iff _ _), branch_complete (geUnsigned_iff _ _)⟩

/-- Settles O47: every branch is `branch` of its condition. -/
theorem branchesFault : Obligations.BranchesFault :=
  fun _ _ _ _ ht => ⟨branch_misaligned beq_iff_eq ht, branch_misaligned bne_iff_ne ht,
    branch_misaligned (ltSigned_iff _ _) ht, branch_misaligned (geSigned_iff _ _) ht,
    branch_misaligned (ltUnsigned_iff _ _) ht, branch_misaligned (geUnsigned_iff _ _) ht⟩

/-- Settles O48: with field rd zero each of the two numbers selects its own write, which touches no other field. -/
theorem csrwCompletes : Obligations.CsrwCompletes := by
  refine fun s rs1 => ⟨?status, ?statsEn⟩
  case status =>
    exact ⟨_, exec_csrw_status rs1 s, rfl, rfl, rfl, fun _ => rfl, SameMemory.refl s, rfl, rfl, rfl⟩
  case statsEn => exact ⟨_, rfl, rfl, rfl, fun _ => rfl, SameMemory.refl s, rfl, SameMachine.refl s⟩

/-- Settles O49: the check of rd comes first, then that of the number. -/
theorem csrwFaults : Obligations.CsrwFaults := by
  refine fun s csr rs1 rd => ⟨fun hrd => ?form, fun hrd hstatus hstats => ?number⟩
  case form => exact if_pos hrd
  case number => exact (if_neg (not_not.2 hrd)).trans ((if_neg hstatus).trans (if_neg hstats))

/-- Settles O51: complementing is exclusive or with ones, negating is subtracting from zero, and zero is the integer 0. -/
theorem notNegAndZeroBranches : Obligations.NotNegAndZeroBranches := by
  refine fun s rd rs1 imm => ⟨?not, ?neg, fun ht => ⟨?beqz, ?bnez, ?blez, ?bgez, ?bltz, ?bgtz⟩⟩
  case not =>
    have hones : immI (-1) = BitVec.allOnes 32 := by decide
    exact exists_writesOnly rfl (by rw [hones, BitVec.xor_allOnes])
  case neg =>
    exact exists_writesOnly rfl (by rw [readReg_x0, BitVec.zero_sub, BitVec.ofInt_neg, BitVec.ofInt_toInt])
  case beqz => exact branch_complete_of_aligned (beq_zero_iff_toInt _) ht
  case bnez => exact branch_complete_of_aligned (bne_zero_iff_toInt _) ht
  case blez => exact branch_complete_of_aligned (geSigned_iff 0#32 _) ht
  case bgez => exact branch_complete_of_aligned (geSigned_iff _ 0#32) ht
  case bltz => exact branch_complete_of_aligned (ltSigned_iff _ 0#32) ht
  case bgtz => exact branch_complete_of_aligned (ltSigned_iff 0#32 _) ht

/-- Settles O52: LUI writes the upper part, ADDI adds the low one. -/
theorem liBuildsEveryConstant : Obligations.LiBuildsEveryConstant := by
  intro s rd c hi lo
  obtain ⟨t, hlui, ht⟩ := writeResult_next s rd (immU hi)
  obtain ⟨u, haddi, hu⟩ := exec_addi_after ht lo
  rw [immU_add_immI_parts, BitVec.add_assoc] at hu
  exact ⟨t, u, hlui, haddi, hu⟩

/-- Settles O53: the same with the distance from the pc, which AUIPC adds to the pc. -/
theorem laBuildsEveryAddress : Obligations.LaBuildsEveryAddress := by
  intro s rd label delta hi lo
  obtain ⟨t, hauipc, ht⟩ := writeResult_next s rd (s.pc + immU hi)
  obtain ⟨u, haddi, hu⟩ := exec_addi_after ht lo
  have hdistance : s.pc + delta = label := by rw [BitVec.add_comm, BitVec.sub_add_cancel]
  rw [BitVec.add_assoc s.pc, immU_add_immI_parts, hdistance, BitVec.add_assoc] at hu
  exact ⟨t, u, hauipc, haddi, hu⟩

end Sys2Proof.Machine
end
